-- ==== Sys2Proof/Word.lean ====
section
/-!
DEFINITION. The words of the hardware: the 8-bit byte of the streams (20_memory.md R52) and the 7-bit payload of a
wire byte (30_encoding.md R80). The value datapath is `BitVec w` for the instance's width `w` (00_scope.md R6).
-/

namespace Sys2Proof

/-- One byte of a stream: "Every access to a stream moves exactly one byte of 8 bits" (20_memory.md R52). -/
abbrev Byte := BitVec 8

/-- The payload `p`, bits 6:0 of a wire byte (30_encoding.md R80). -/
abbrev Payload := BitVec 7

end Sys2Proof
end

