-- ==== Sys2Proof/Syntax.lean ====
section
/-!
DEFINITION. The operations and the wire-byte classes of the opcode table, one constructor a row (30_encoding.md R81,
R94), and the two notations the table writes them in. The block executes no stored program: an "instruction" here is
an operation of a unit, or a byte on the decoder's source.
-/

namespace Sys2Proof

/-- The six rows of spec/opcode_table.json. The operands of the four operations are not bits of a word: they come on
the channels (10_state.md R26, R27). -/
inductive Instr where
  /-- `ENC.U`, encode unsigned, SIGNED = 0 (41_encode.md R132). -/
  | encU
  /-- `ENC.S`, encode signed, SIGNED = 1 (41_encode.md R133). -/
  | encS
  /-- `DEC.U`, decode unsigned, SIGNED = 0 (42_decode.md R162). -/
  | decU
  /-- `DEC.S`, decode signed, SIGNED = 1 (42_decode.md R163). -/
  | decS
  /-- `BYTE.CONT`, a wire byte `1ppppppp`: more bytes of this integer follow (30_encoding.md R81). -/
  | byteCont (p : Payload)
  /-- `BYTE.FINAL`, a wire byte `0ppppppp`: the final byte of the integer (30_encoding.md R81). -/
  | byteFinal (p : Payload)
  deriving DecidableEq, Repr

/-- The two notations of the opcode table. The selector {unit, SIGNED} "is notation of this spec only: it is not a field
of any word, no port carries it and no register holds it" (30_encoding.md R94); a wire byte is a real byte (R80). -/
inductive Code where
  | selector (sel : BitVec 2)
  | wire (b : Byte)
  deriving DecidableEq, Repr

/-- Why bits name no row of the table. -/
inductive DecodeError where
  /-- The byte stream holds no byte. Safe: nothing is decoded. -/
  | emptyStream
  /-- A number that is no 2-bit selector, in a notation too short for a wire byte. Safe: nothing is decoded. -/
  | noSelector
  /-- More bits than a wire byte has: no word of this hardware is longer (30_encoding.md R80). Safe. -/
  | notOneByte
  deriving DecidableEq, Repr

/-- The mnemonic of a row, letter for letter as spec/opcode_table.json has it. -/
def Instr.mnemonic : Instr → String
  | .encU => "ENC.U"
  | .encS => "ENC.S"
  | .decU => "DEC.U"
  | .decS => "DEC.S"
  | .byteCont _ => "BYTE.CONT"
  | .byteFinal _ => "BYTE.FINAL"

end Sys2Proof
end

