-- ==== Sys2Proof/WellFormed.lean ====
section
/-!
DEFINITION. What is well-formed. Every `Instr` is well-formed as a term (no byte value is reserved or illegal,
30_encoding.md R92); what can be wrong is an operation that an instance does not have (00_scope.md R7), or an instance
whose width the spec does not admit (00_scope.md R6).
-/

namespace Sys2Proof

/-- The instance with this `SIGNED` has the operation: "It selects `ENC.U` and `DEC.U` (`SIGNED = 0`) or `ENC.S` and
`DEC.S` (`SIGNED = 1`)" (00_scope.md R7). Both have both classes of wire byte (30_encoding.md R80, R81). -/
def Instr.availableIn (signed : Bool) : Instr → Bool
  | .encU => !signed
  | .encS => signed
  | .decU => !signed
  | .decS => signed
  | .byteCont _ => true
  | .byteFinal _ => true

/-- The admitted set of widths (00_scope.md R6). -/
def admittedWidth (w : Nat) : Bool :=
  w == 8 || w == 16 || w == 32 || w == 64 || w == 128

/-- The widths the rules are written for and the registers of 10_state.md R22, R23 hold: a positive integer
(00_scope.md R6) up to the 128 bits at which R5 and R6 bound the block. The admitted set lies inside it. -/
def supportedWidth (w : Nat) : Bool :=
  decide (1 ≤ w) && decide (w ≤ 128)

end Sys2Proof
end

