-- ==== Sys2Proof/Decode.lean ====
section
/-!
DEFINITION. From bits to an instruction and back, in the two notations of the opcode table (30_encoding.md R80, R81,
R94). Decoding a wire byte is total: all 256 values belong to exactly one class (R81) and none is reserved (R92).
-/

namespace Sys2Proof

/-- The continuation flag `c`, bit 7 of a wire byte (30_encoding.md R80, 42_decode.md R164). -/
def contFlag (b : Byte) : Bool := b.getLsbD 7

/-- The payload `p`, bits 6:0 of a wire byte (30_encoding.md R80, 42_decode.md R164). -/
def payload (b : Byte) : Payload := b.setWidth 7

/-- `{c, p}`: the wire byte with continuation flag `c` and payload `p` (30_encoding.md R80). -/
def wireByte (c : Bool) (p : Payload) : Byte := BitVec.ofBool c ++ p

/-- The class of a wire byte, told by `c` alone (30_encoding.md R81). -/
def decodeWire (b : Byte) : Instr :=
  if contFlag b then .byteCont (payload b) else .byteFinal (payload b)

/-- The operation a selector {unit, SIGNED} names (30_encoding.md R94): bit 1 the unit (0 `ENC`, 1 `DEC`), bit 0 SIGNED. -/
def decodeSelector (sel : BitVec 2) : Instr :=
  match sel.getLsbD 1, sel.getLsbD 0 with
  | false, false => .encU
  | false, true => .encS
  | true, false => .decU
  | true, true => .decS

/-- The row of the table a code names: total, since every selector and every byte has one. -/
def decode : Code → Instr
  | .selector sel => decodeSelector sel
  | .wire b => decodeWire b

/-- The next instruction of a byte stream and the rest of the stream (30_encoding.md R83: one byte at a time, never
looking past it). -/
def decodeStream : List Byte → Except DecodeError (Instr × List Byte)
  | [] => .error .emptyStream
  | b :: rest => .ok (decodeWire b, rest)

/-- The code of an instruction: the selectors of 30_encoding.md R94 and the bytes of R80. -/
def encode : Instr → Code
  | .encU => .selector 0b00#2
  | .encS => .selector 0b01#2
  | .decU => .selector 0b10#2
  | .decS => .selector 0b11#2
  | .byteCont p => .wire (wireByte true p)
  | .byteFinal p => .wire (wireByte false p)

/-! ### The table's own rows -/

/-- Which of the two notations a row is written in. -/
inductive RowKind where
  | selector
  | wire
  deriving DecidableEq, Repr

/-- One row of spec/opcode_table.json: a mask and the bits it must match. -/
structure Row where
  mnemonic : String
  kind : RowKind
  mask : BitVec 8
  pattern : BitVec 8
  deriving DecidableEq, Repr

/-- spec/opcode_table.json, row by row (30_encoding.md R81, R94). -/
def opcodeTable : List Row :=
  [ ⟨"ENC.U", .selector, 0x03#8, 0x00#8⟩,
    ⟨"ENC.S", .selector, 0x03#8, 0x01#8⟩,
    ⟨"DEC.U", .selector, 0x03#8, 0x02#8⟩,
    ⟨"DEC.S", .selector, 0x03#8, 0x03#8⟩,
    ⟨"BYTE.CONT", .wire, 0x80#8, 0x80#8⟩,
    ⟨"BYTE.FINAL", .wire, 0x80#8, 0x00#8⟩ ]

/-- The notation of a code. -/
def codeKind : Code → RowKind
  | .selector _ => .selector
  | .wire _ => .wire

/-- The bits of a code, a selector in the low two. -/
def codeBits : Code → BitVec 8
  | .selector sel => sel.setWidth 8
  | .wire b => b

/-- The row's mask and pattern accept the code, in the row's own notation. -/
def Row.accepts (r : Row) (c : Code) : Bool :=
  codeKind c == r.kind && codeBits c &&& r.mask == r.pattern

/-! ### The host's view of the table -/

/-- The code that `nbits` bits of value `w` stand for. A selector has two bits and a wire byte eight. A selector that was
padded to a whole byte cannot be told from the final bytes 0x00 to 0x03: the numbers 0 to 3 are then read as selectors
(log 11, DESIGN CHOICE; the machine itself never does this, its decoder reads a wire byte by `decodeWire`). -/
def codeOfBits (nbits w : Nat) : Except DecodeError Code :=
  if w < 4 ∧ nbits ≤ 8 then .ok (.selector (BitVec.ofNat 2 w))
  else if nbits < 8 then .error .noSelector
  else if nbits = 8 ∧ w < 256 then .ok (.wire (BitVec.ofNat 8 w))
  else .error .notOneByte

/-- The instruction that `nbits` bits of value `w` stand for, or why there is none. -/
def decodeBits (nbits w : Nat) : Except DecodeError Instr :=
  match codeOfBits nbits w with
  | .ok c => .ok (decode c)
  | .error e => .error e

/-- `decodeBits` as the host asks for it. -/
def decodeTableWord (nbits w : Nat) : Option Instr :=
  match decodeBits nbits w with
  | .ok i => some i
  | .error _ => none

end Sys2Proof
end

