-- ==== Sys2Proof/Machine/State.lean ====
section
/-!
DEFINITION. State: the registers of the two units (10_state.md R22, R23), the static parameters of the instance
(00_scope.md R6, R7), and the environment's side as plain data (20_memory.md R58, R68). Reset is 10_state.md R33.

There is no addressable memory (20_memory.md R50), no program counter (10_state.md R29) and no register file (R28), so
none of them is here.
-/

namespace Sys2Proof.Machine

/-! ### The registers -/

/-- The codes of `e_state` (10_state.md R22); code 3 is never reached and does not exist here (93 U6, log 18). -/
inductive EncState where
  | idle
  | emit
  | done
  deriving DecidableEq, Repr

/-- The codes of `d_state` (10_state.md R23). -/
inductive DecState where
  | recv
  | done
  deriving DecidableEq, Repr

/-- The status codes of 10_state.md R24; `0b11` is never produced and does not exist here (93 U6, log 18). -/
inductive Status where
  | ok
  | ioError
  | invalidData
  deriving DecidableEq, Repr

/-- The registers of unit `ENC` (10_state.md R22). -/
structure EncUnit (w : Nat) where
  /-- `e_state`. -/
  state : EncState
  /-- `e_val`: the part of the value not yet emitted. -/
  val : BitVec w
  /-- `e_cnt`: the bytes the sink has accepted in the current operation. -/
  cnt : BitVec 5
  /-- `e_status`: the status of the finished operation. -/
  status : Status
  deriving DecidableEq, Repr

/-- The registers of unit `DEC` (10_state.md R23). -/
structure DecUnit (w : Nat) where
  /-- `d_state`. -/
  state : DecState
  /-- `d_acc`: the accumulated result. -/
  acc : BitVec w
  /-- `d_off`: the bit offset of the next byte. -/
  off : BitVec 8
  /-- `d_status`: the status of the finished operation. -/
  status : Status
  deriving DecidableEq, Repr

/-- The reset values of unit `ENC` (10_state.md R33). -/
def EncUnit.reset (w : Nat) : EncUnit w := ⟨.idle, 0#w, 0#5, .ok⟩

/-- The reset values of unit `DEC` (10_state.md R33). -/
def DecUnit.reset (w : Nat) : DecUnit w := ⟨.recv, 0#w, 0#8, .ok⟩

/-! ### The environment -/

/-- The values of the input ports at one rising edge of `clk` (10_state.md R25 to R27), and one choice of the
environment's that no port carries: whether the sink keeps a byte whose write fails (20_memory.md R54, 93 U5, log 7). -/
structure PortIn (w : Nat) where
  /-- `rst`. -/
  rst : Bool
  /-- `enc_in_valid`. -/
  encInValid : Bool
  /-- `enc_in_value`. -/
  encInValue : BitVec w
  /-- `enc_snk_ready`. -/
  encSnkReady : Bool
  /-- `enc_snk_err`. -/
  encSnkErr : Bool
  /-- The sink keeps the byte if this write fails: not a port (93 U5). -/
  snkKeeps : Bool
  /-- `enc_res_ready`. -/
  encResReady : Bool
  /-- `dec_src_valid`. -/
  decSrcValid : Bool
  /-- `dec_src_byte`. -/
  decSrcByte : Byte
  /-- `dec_src_err`. -/
  decSrcErr : Bool
  /-- `dec_res_ready`. -/
  decResReady : Bool
  deriving DecidableEq, Repr

/-- An edge at which the environment drives every input to 0: no transfer can happen at it. -/
def PortIn.silent (w : Nat) : PortIn w :=
  ⟨false, false, 0#w, false, false, false, false, false, 0#8, false, false⟩

/-- The answer of `SrcRead()` (20_memory.md R53). -/
inductive SrcAnswer where
  | byte (b : Byte)
  | fail
  deriving DecidableEq, Repr

/-- The answer of `SnkWrite(b)` (20_memory.md R54). -/
inductive SnkAnswer where
  | ok
  | fail
  deriving DecidableEq, Repr

/-- An operation's result: "one of three shapes, never a mixture" (00_scope.md R13); an error carries no value. -/
inductive OpResult (α : Type) where
  | ok (a : α)
  | ioError
  | invalidData
  deriving DecidableEq, Repr

/-- One instance of width `w` with its environment. -/
structure Block (w : Nat) where
  /-- The registers of unit `ENC`. -/
  enc : EncUnit w
  /-- The registers of unit `DEC`. -/
  dec : DecUnit w
  /-- The input ports at the edge being taken: the model's own field (log 5). -/
  ports : PortIn w
  /-- The input ports at the coming edges, earliest first: the model's own field (log 3). -/
  agenda : List (PortIn w)
  /-- The bytes the sink holds, oldest first (20_memory.md R58): the environment's (log 6). -/
  sink : List Byte
  /-- The bytes taken from the source, oldest first (20_memory.md R62): the environment's (log 6). -/
  taken : List Byte
  /-- The results delivered on `ENC.RES`, oldest first (41_encode.md R142): the host's (log 6). -/
  encResults : List (OpResult (BitVec 5))
  /-- The results delivered on `DEC.RES`, oldest first (42_decode.md R179): the host's (log 6). -/
  decResults : List (OpResult (BitVec w))
  /-- Numbers the draws of the unspecified outputs (10_state.md R36): the model's own field (log 8). -/
  draw : Nat
  deriving DecidableEq, Repr

/-- The machine: the static parameters, which no step changes (00_scope.md R6, R7, log 1), and the block. -/
structure State where
  /-- The parameter `W`. -/
  width : Nat
  /-- The parameter `SIGNED`. -/
  signed : Bool
  /-- The registers and the environment of the instance. -/
  block : Block width
  deriving DecidableEq, Repr

/-! ### How a step can stop -/

/-- What stops the machine: nothing. The spec's two error classes end an OPERATION, as its result (60_exceptions.md
R200, R207), and are next states; the type has no constructor (log 16, safe). -/
inductive Fault where
  deriving DecidableEq, Repr

/-- What the model gives no meaning. -/
inductive Refusal where
  /-- Raised by `exec` for an instruction without a meaning. No arm raises it: every row has its meaning. Safe. -/
  | notModelled (mnemonic : String)
  /-- Raised by a read of a wire byte that would shift left by `W` or more: "a model must give `shl_W` no value for
  `n ≥ W` rather than pick one" (40_numeric_primitives.md R114, 93 U3). Only states with `d_off` above `MAX_SHIFT` raise
  it, and no run reaches one (log 9). Safe. -/
  | shiftOutOfRange
  /-- Raised by an operation asked of an instance that does not have it, such as `ENC.U` of one with SIGNED = 1
  (00_scope.md R7, 30_encoding.md R94, log 10). No step raises it. Safe. -/
  | otherInstance (mnemonic : String)
  deriving DecidableEq, Repr

/-! ### Reset -/

/-- The block after reset, its environment not having done anything yet (10_state.md R33, 70 R241; logs 3, 5, 6, 8). -/
def Block.reset (w : Nat) : Block w :=
  { enc := EncUnit.reset w, dec := DecUnit.reset w, ports := PortIn.silent w, agenda := [], sink := [], taken := [],
    encResults := [], decResults := [], draw := 0 }

/-- The machine after reset, for the instance with width `w` and the given `SIGNED`. -/
def State.resetFor (w : Nat) (signed : Bool) : State := ⟨w, signed, Block.reset w⟩

/-- The machine after reset. The spec leaves `W` and `SIGNED` to the instance (92 D2, D3); this one has `W = 64` and
`SIGNED = 0` (log 2, DESIGN CHOICE). -/
def State.reset : State := State.resetFor 64 false

end Sys2Proof.Machine
end

