-- ==== Sys2Proof/Machine/Operands.lean ====
section
/-!
DEFINITION. The derived constants of the width (00_scope.md R8) and the numeric primitives the two operations are built
from (40_numeric_primitives.md R110 to R121). `zeros(W)` is `0#w`, `ones(W)` is `BitVec.allOnes w` (R111).
-/

namespace Sys2Proof.Machine

/-! ### Derived constants (00_scope.md R8) -/

/-- `MAX_SHIFT = floor(W / 7) * 7`: the bit offset of the boundary byte. -/
def maxShift (w : Nat) : Nat := w / 7 * 7

/-- `K = W - MAX_SHIFT`: the payload bits the boundary byte may contribute. -/
def boundaryBits (w : Nat) : Nat := w - maxShift w

/-- `MAX_LAST_BYTE = 2^K - 1`. -/
def maxLastByte (w : Nat) : Nat := 2 ^ boundaryBits w - 1

/-- `N_DEC_MAX = floor(W / 7) + 1`: the most bytes one decode consumes. -/
def nDecMax (w : Nat) : Nat := w / 7 + 1

/-- `N_ENC_MAX = ceil(W / 7)`: the most bytes one encode emits. -/
def nEncMax (w : Nat) : Nat := (w + 6) / 7

/-! ### Shifts -/

/-- `shl_W(a, n)` (R114): defined for `n < W` only; for more it has no value (93 U3). -/
def shl {w : Nat} (a : BitVec w) (n : Nat) : Option (BitVec w) :=
  if n < w then some (a <<< n) else none

/-- `shr_W(a, n)`: the logical right shift (R115). -/
def shr {w : Nat} (a : BitVec w) (n : Nat) : BitVec w := a >>> n

/-- `sar_W(a, n)`: the arithmetic right shift (R116). -/
def sar {w : Nat} (a : BitVec w) (n : Nat) : BitVec w := a.sshiftRight n

/-- `rsh_W(a, n)`: the right shift "appropriate to the type's signedness" (R117). -/
def rsh {w : Nat} (signed : Bool) (a : BitVec w) (n : Nat) : BitVec w :=
  if signed then sar a n else shr a n

/-! ### Conversions -/

/-- `trunc8(a)` (R118): the low 8 bits; a narrower vector is first extended as its signedness says. -/
def trunc8 {w : Nat} (signed : Bool) (a : BitVec w) : Byte :=
  if signed then a.signExtend 8 else a.setWidth 8

/-- The low 7 bits of a value, `trunc8(a) & 0x7F` (R118). -/
def low7 {w : Nat} (signed : Bool) (a : BitVec w) : Payload := (trunc8 signed a).setWidth 7

/-- `zext_W(p)` of a payload (R119): "never sign-extended at this point"; for `W < 7` it keeps the low `W` bits. -/
def zextPayload (w : Nat) (p : Payload) : BitVec w := p.setWidth w

/-- `zext_W(p[K-1:0])`: the payload bits of the boundary byte that have a place in the value (42_decode.md R167). -/
def zextBoundary (w : Nat) (p : Payload) : BitVec w := (p.setWidth (boundaryBits w)).setWidth w

/-- The value a `W`-bit vector stands for, `val(x)` (00_scope.md R11). -/
def valueOf {w : Nat} (signed : Bool) (x : BitVec w) : Int := if signed then x.toInt else x.toNat

end Sys2Proof.Machine
end

