-- ==== Sys2Proof/Machine/Flags.lean ====
section
/-!
DEFINITION. The one-bit conditions of the block (10_state.md R30) and the 2-bit status at the ports (R24). There is no
flags register: each condition is a function of state or of the byte in hand. The continuation flag of a byte in hand is
`contFlag` (Decode.lean).
-/

namespace Sys2Proof.Machine

/-! ### The encoder's `last` predicate -/

/-- `last_U(nxt)`: "last byte iff the shifted value is exactly zero" (41_encode.md R132). -/
def lastU {w : Nat} (nxt : BitVec w) : Bool := nxt == 0#w

/-- `last_S(nxt, low)` (41_encode.md R133): the bits above the byte are the sign extension of its own bit 6. -/
def lastS {w : Nat} (nxt : BitVec w) (low : Payload) : Bool :=
  (nxt == 0#w && !low.getLsbD 6) || (nxt == BitVec.allOnes w && low.getLsbD 6)

/-- `last(x)` for the value `x` before the shift (41_encode.md R131). -/
def isLast {w : Nat} (signed : Bool) (x : BitVec w) : Bool :=
  if signed then lastS (rsh signed x 7) (low7 signed x) else lastU (rsh signed x 7)

/-! ### The decoder's conditions -/

/-- `at_boundary = (d_off == MAX_SHIFT)` (10_state.md R30, 40_numeric_primitives.md R121 (d)). -/
def atBoundary (w off : Nat) : Bool := off == maxShift w

/-- `legal_last(p, acc)`, unsigned (42_decode.md R167): the payload does not exceed `MAX_LAST_BYTE`. -/
def legalLastU (w : Nat) (p : Payload) : Bool := decide (p.toNat ≤ maxLastByte w)

/-- `legal_last(p, acc)`, signed: payload bits 6 down to `K-1` all equal (42_decode.md R171); with `K = 0` the payload is
pure extension of the sign already written (R172). -/
def legalLastS {w : Nat} (p : Payload) (acc : BitVec w) : Bool :=
  let k := boundaryBits w
  if k = 0 then (p == 0#7 && !acc.msb) || (p == BitVec.allOnes 7 && acc.msb)
  else
    let top := p.extractLsb' (k - 1) (8 - k)
    top == 0#(8 - k) || top == BitVec.allOnes (8 - k)

/-- `legal_last(p, acc)` of the instance (42_decode.md R161). -/
def legalLast {w : Nat} (signed : Bool) (p : Payload) (acc : BitVec w) : Bool :=
  if signed then legalLastS p acc else legalLastU w p

/-- The condition of the sign fill after a final byte before the boundary (42_decode.md R170). -/
def needsSignFill (w : Nat) (signed : Bool) (p : Payload) (off : Nat) : Bool :=
  signed && p.getLsbD 6 && decide (off + 7 < w)

/-! ### The status code at the ports -/

/-- The 2-bit code of a status (10_state.md R24). -/
def statusCode : Status → BitVec 2
  | .ok => 0b00#2
  | .ioError => 0b01#2
  | .invalidData => 0b10#2

end Sys2Proof.Machine
end

