-- ==== Sys2Proof/Machine/Ops.lean ====
section
/-!
DEFINITION. The named operations over the registers and the channels: which transfer an edge makes (20_memory.md R56),
the read and write primitives (R53, R54), taking an error and returning from it (60_exceptions.md R207, R208), reset (70
R240), and sampling the ports at an edge.
-/

namespace Sys2Proof.Machine

/-! ### Outcomes -/

/-- The outcome of a second operation on the state the first left, if the first left one. -/
def andThen {σ τ : Type} (o : Host.Outcome σ Fault Refusal) (f : σ → Host.Outcome τ Fault Refusal) :
    Host.Outcome τ Fault Refusal :=
  match o with
  | .next s => f s
  | .fault e => .fault e
  | .refused r => .refused r

/-- The machine with another block: the parameters stay (00_scope.md R6, R7). -/
def State.withBlock (s : State) (b : Block s.width) : State := { s with block := b }

/-- An outcome of the block as an outcome of the machine. -/
def State.lift (s : State) (o : Host.Outcome (Block s.width) Fault Refusal) : Host.Outcome State Fault Refusal :=
  andThen o (fun b => .next (s.withBlock b))

/-- An operation of the instances with `SIGNED = want` only (00_scope.md R7, 30_encoding.md R94; log 10). -/
def State.inInstance (s : State) (want : Bool) (mnemonic : String)
    (f : Block s.width → Host.Outcome (Block s.width) Fault Refusal) : Host.Outcome State Fault Refusal :=
  if s.signed = want then s.lift (f s.block) else .refused (.otherInstance mnemonic)

/-! ### Which transfer happens at the edge (20_memory.md R56)

A transfer happens at an edge with `rst = 0` at which the channel's `valid` and `ready` are both 1. The unit's own side
of each handshake is a function of its state (10_state.md R34, R35). -/

/-- A transfer on `ENC.IN`. -/
def encInTransfer {w : Nat} (b : Block w) : Bool :=
  !b.ports.rst && b.ports.encInValid && b.enc.state == .idle

/-- A transfer on `ENC.SNK`. -/
def encSnkTransfer {w : Nat} (b : Block w) : Bool :=
  !b.ports.rst && b.ports.encSnkReady && b.enc.state == .emit

/-- A transfer on `ENC.RES`. -/
def encResTransfer {w : Nat} (b : Block w) : Bool :=
  !b.ports.rst && b.ports.encResReady && b.enc.state == .done

/-- A transfer on `DEC.SRC`. -/
def decSrcTransfer {w : Nat} (b : Block w) : Bool :=
  !b.ports.rst && b.ports.decSrcValid && b.dec.state == .recv

/-- A transfer on `DEC.RES`. -/
def decResTransfer {w : Nat} (b : Block w) : Bool :=
  !b.ports.rst && b.ports.decResReady && b.dec.state == .done

/-! ### The read and write primitives -/

/-- `SrcRead()` at a transfer on `DEC.SRC` (20_memory.md R53): with `dec_src_err = 1` the byte lines are ignored. -/
def srcRead {w : Nat} (b : Block w) : SrcAnswer :=
  if b.ports.decSrcErr then .fail else .byte b.ports.decSrcByte

/-- The sink's answer at a transfer on `ENC.SNK` (20_memory.md R54). -/
def snkAnswer {w : Nat} (b : Block w) : SnkAnswer :=
  if b.ports.encSnkErr then .fail else .ok

/-- The sink after it has been handed `x`: appended when it answers `ok` (20_memory.md R58), and when it answers `fail`
kept or not as the environment chooses (R54, 93 U5; log 7). -/
def snkHand {w : Nat} (x : Byte) (b : Block w) : Block w :=
  match snkAnswer b with
  | .ok => { b with sink := b.sink ++ [x] }
  | .fail => if b.ports.snkKeeps then { b with sink := b.sink ++ [x] } else b

/-- A byte read from the source is consumed (20_memory.md R62). -/
def takeByte {w : Nat} (x : Byte) (b : Block w) : Block w := { b with taken := b.taken ++ [x] }

/-! ### Taking an error and returning from it -/

/-- The two units (00_scope.md R2). -/
inductive UnitName where
  | enc
  | dec
  deriving DecidableEq, Repr

/-- The two error classes: "Two error classes only" (60_exceptions.md R200). -/
inductive ErrorClass where
  | ioError
  | invalidData
  deriving DecidableEq, Repr

/-- The status an error class is reported by (60_exceptions.md R200). -/
def errorStatus : ErrorClass → Status
  | .ioError => .ioError
  | .invalidData => .invalidData

/-- Taking an error (60_exceptions.md R207): "the unit's status register takes the error's code, the unit's state becomes
`E_DONE` or `D_DONE`, and nothing else changes". -/
def raiseError {w : Nat} (u : UnitName) (e : ErrorClass) (b : Block w) : Block w :=
  match u with
  | .enc => { b with enc := { b.enc with status := errorStatus e, state := .done } }
  | .dec => { b with dec := { b.dec with status := errorStatus e, state := .done } }

/-- The result a status and a payload stand for (00_scope.md R13): an error carries no value. -/
def resultOf {α : Type} (st : Status) (a : α) : OpResult α :=
  match st with
  | .ok => .ok a
  | .ioError => .ioError
  | .invalidData => .invalidData

/-- The counterpart of a return from trap (60_exceptions.md R208): the host takes the result, and the unit goes back to its
idle state. `ENC` keeps its other registers (41_encode.md R142); `DEC` clears `d_acc` and `d_off` and keeps `d_status`
(42_decode.md R179, 90 C10). -/
def giveResult {w : Nat} (u : UnitName) (b : Block w) : Block w :=
  match u with
  | .enc => { b with enc := { b.enc with state := .idle },
                     encResults := b.encResults ++ [resultOf b.enc.status b.enc.cnt] }
  | .dec => { b with dec := { b.dec with acc := 0#w, off := 0#8, state := .recv },
                     decResults := b.decResults ++ [resultOf b.dec.status b.dec.acc] }

/-! ### Reset and the edge -/

/-- `rst = 1` at an edge (70 R240): "every register of both units takes its reset value". What the environment holds
stays: bytes written stay written, bytes read stay consumed, and a result that was waiting is lost (R242). -/
def resetRegisters {w : Nat} (b : Block w) : Block w :=
  { b with enc := EncUnit.reset w, dec := DecUnit.reset w }

/-- The input ports at the next edge: the head of the agenda, or silence when the environment does nothing more
(70 R254; log 3). -/
def nextPorts {w : Nat} (b : Block w) : PortIn w :=
  match b.agenda with
  | [] => PortIn.silent w
  | p :: _ => p

/-- The block at the next edge: its ports take the values of that edge, and the unspecified outputs are drawn anew
(10_state.md R36; logs 5, 8). -/
def samplePorts {w : Nat} (b : Block w) : Block w :=
  { b with ports := nextPorts b, agenda := b.agenda.tail, draw := b.draw + 1 }

end Sys2Proof.Machine
end

