-- ==== Sys2Proof/Machine/WireByte.lean ====
section
/-!
DEFINITION. What the decoder does with a wire byte of each class, `BYTE.CONT` and `BYTE.FINAL` (30_encoding.md R81): one
iteration of the loop of 42_decode.md R161, which is step `DEC.READ` (R178) with `c = 1` and with `c = 0`.
-/

namespace Sys2Proof.Machine

/-- What one byte makes of the accumulator (one iteration of 42_decode.md R161). -/
inductive Absorbed (w : Nat) where
  /-- More bytes follow; the accumulator so far. -/
  | more (acc : BitVec w)
  /-- The operation ends with this value. -/
  | value (acc : BitVec w)
  /-- The operation ends with `INVALID_DATA`. -/
  | invalid
  /-- A left shift by `W` or more: no value (40_numeric_primitives.md R114, 93 U3). -/
  | noShift
  deriving DecidableEq, Repr

/-- `acc | shl_W(a, n)`, when the shift has a value. -/
def mergeAt {w : Nat} (acc a : BitVec w) (n : Nat) : Option (BitVec w) :=
  match shl a n with
  | some f => some (acc ||| f)
  | none => none

/-- The end of the operation with the merged value, if the shift had one. -/
def valueOrNoShift {w : Nat} : Option (BitVec w) → Absorbed w
  | some acc => .value acc
  | none => .noShift

/-- A continuation byte at bit offset `off`: at the boundary the sequence is too long (42_decode.md R168), before it all 7
payload bits are accumulated (R165). -/
def absorbCont {w : Nat} (p : Payload) (acc : BitVec w) (off : Nat) : Absorbed w :=
  if atBoundary w off then .invalid
  else
    match mergeAt acc (zextPayload w p) off with
    | some acc1 => .more acc1
    | none => .noShift

/-- A legal final byte at the boundary contributes its low `K` bits, nothing when `K = 0` (42_decode.md R167, R171, R172). -/
def absorbBoundary {w : Nat} (p : Payload) (acc : BitVec w) : Absorbed w :=
  if 1 ≤ boundaryBits w then valueOrNoShift (mergeAt acc (zextBoundary w p) (maxShift w)) else .value acc

/-- A final byte before the boundary: accumulated (42_decode.md R165), then sign-extended from its bit 6 in the signed
variant (R170). -/
def absorbEnd {w : Nat} (signed : Bool) (p : Payload) (acc : BitVec w) (off : Nat) : Absorbed w :=
  match mergeAt acc (zextPayload w p) off with
  | none => .noShift
  | some acc1 =>
    if needsSignFill w signed p off then valueOrNoShift (mergeAt acc1 (BitVec.allOnes w) (off + 7)) else .value acc1

/-- A final byte at bit offset `off` (42_decode.md R161, R166): only the boundary byte is checked (R169). -/
def absorbFinal {w : Nat} (signed : Bool) (p : Payload) (acc : BitVec w) (off : Nat) : Absorbed w :=
  if atBoundary w off then
    if legalLast signed p acc then absorbBoundary p acc else .invalid
  else absorbEnd signed p acc off

/-- Any byte at bit offset `off`: split into flag and payload (42_decode.md R164). -/
def absorb {w : Nat} (signed : Bool) (x : Byte) (acc : BitVec w) (off : Nat) : Absorbed w :=
  if contFlag x then absorbCont (payload x) acc off else absorbFinal signed (payload x) acc off

/-- The registers of unit `DEC` after the byte (42_decode.md R178); a missing shift value is refused (log 9). -/
def applyAbsorbed {w : Nat} (a : Absorbed w) (b : Block w) : Host.Outcome (Block w) Fault Refusal :=
  match a with
  | .more acc => .next { b with dec := { b.dec with acc := acc, off := b.dec.off + 7#8 } }
  | .value acc => .next { b with dec := { b.dec with acc := acc, status := .ok, state := .done } }
  | .invalid => .next (raiseError .dec .invalidData b)
  | .noShift => .refused .shiftOutOfRange

/-- Step `DEC.READ` on a byte the unit takes (42_decode.md R178). In `D_DONE` the unit takes no byte (R180): it stays on
the source and nothing changes. -/
def readByte {w : Nat} (x : Byte) (absorbed : Absorbed w) (b : Block w) : Host.Outcome (Block w) Fault Refusal :=
  match b.dec.state with
  | .recv => applyAbsorbed absorbed (takeByte x b)
  | .done => .next b

/-- `BYTE.CONT` with payload `p` (30_encoding.md R81; 42_decode.md R178 with `c = 1`), offered to the decoder. -/
def readCont {w : Nat} (p : Payload) (b : Block w) : Host.Outcome (Block w) Fault Refusal :=
  readByte (wireByte true p) (absorbCont p b.dec.acc b.dec.off.toNat) b

/-- `BYTE.FINAL` with payload `p` (30_encoding.md R81; 42_decode.md R178 with `c = 0`), offered to the decoder. -/
def readFinal {w : Nat} (signed : Bool) (p : Payload) (b : Block w) : Host.Outcome (Block w) Fault Refusal :=
  readByte (wireByte false p) (absorbFinal signed p b.dec.acc b.dec.off.toNat) b

/-- The instruction `BYTE.CONT`. -/
def execByteCont (p : Payload) (s : State) : Host.Outcome State Fault Refusal := s.lift (readCont p s.block)

/-- The instruction `BYTE.FINAL`. -/
def execByteFinal (p : Payload) (s : State) : Host.Outcome State Fault Refusal := s.lift (readFinal s.signed p s.block)

end Sys2Proof.Machine
end

