-- ==== Sys2Proof/Machine/DecodeUnit.lean ====
section
/-!
DEFINITION. The decode operations `DEC.U` and `DEC.S` as steps of unit `DEC` (42_decode.md R178, R179): an edge makes at
most one transfer of the unit, and that transfer is the step.
-/

namespace Sys2Proof.Machine

/-- A transfer on `DEC.SRC`, step `DEC.READ` (42_decode.md R178): a failing read takes `IO_ERROR` (R173), a byte is read
as its class says (30_encoding.md R81). -/
def decRead {w : Nat} (signed : Bool) (b : Block w) : Host.Outcome (Block w) Fault Refusal :=
  match srcRead b with
  | .fail => .next (raiseError .dec .ioError b)
  | .byte x => if contFlag x then readCont (payload x) b else readFinal signed (payload x) b

/-- What unit `DEC` does at the edge: the step that its transfer enables, and nothing without a transfer (20_memory.md
R56). Step `DEC.RESULT` is `giveResult` (42_decode.md R179). -/
def decEdge {w : Nat} (signed : Bool) (b : Block w) : Host.Outcome (Block w) Fault Refusal :=
  if decSrcTransfer b then decRead signed b
  else if decResTransfer b then .next (giveResult .dec b)
  else .next b

/-- `DEC.U` (42_decode.md R162): the next transfer of the operation, at an instance with SIGNED = 0. -/
def execDecU (s : State) : Host.Outcome State Fault Refusal :=
  s.inInstance false "DEC.U" (fun b => decEdge false b)

/-- `DEC.S` (42_decode.md R163): the next transfer of the operation, at an instance with SIGNED = 1. -/
def execDecS (s : State) : Host.Outcome State Fault Refusal :=
  s.inInstance true "DEC.S" (fun b => decEdge true b)

end Sys2Proof.Machine
end

