-- ==== Sys2Proof/Machine/Encode.lean ====
section
/-!
DEFINITION. The encode operations `ENC.U` and `ENC.S` as steps of unit `ENC` (41_encode.md R140 to R143): an edge makes at
most one transfer of the unit, and that transfer is the step.
-/

namespace Sys2Proof.Machine

/-- `{~last, low}`: the byte the unit offers for the value `x` that is left (10_state.md R34, 41_encode.md R131). -/
def encByte {w : Nat} (signed : Bool) (x : BitVec w) : Byte := wireByte (!isLast signed x) (low7 signed x)

/-- Step `ENC.ACCEPT` (41_encode.md R140). -/
def encAccept {w : Nat} (v : BitVec w) (b : Block w) : Block w :=
  { b with enc := { b.enc with val := v, cnt := 0#5, state := .emit } }

/-- The registers after step `ENC.WRITE(ok)` (41_encode.md R141). -/
def encAdvance {w : Nat} (signed : Bool) (e : EncUnit w) : EncUnit w :=
  if isLast signed e.val then { e with cnt := e.cnt + 1#5, status := .ok, state := .done }
  else { e with cnt := e.cnt + 1#5, val := rsh signed e.val 7 }

/-- A transfer on `ENC.SNK`: the byte is handed to the sink, and the unit takes step `ENC.WRITE(ok)` (41_encode.md R141) or
`ENC.WRITE(fail)` (R143), which is the taking of `IO_ERROR`. -/
def encWrite {w : Nat} (signed : Bool) (b : Block w) : Block w :=
  let handed := snkHand (encByte signed b.enc.val) b
  match snkAnswer b with
  | .ok => { handed with enc := encAdvance signed b.enc }
  | .fail => raiseError .enc .ioError handed

/-- What unit `ENC` does at the edge: the step that its transfer enables, and nothing without a transfer (20_memory.md
R56). Step `ENC.RESULT` is `giveResult` (41_encode.md R142). -/
def encEdge {w : Nat} (signed : Bool) (b : Block w) : Block w :=
  if encInTransfer b then encAccept b.ports.encInValue b
  else if encSnkTransfer b then encWrite signed b
  else if encResTransfer b then giveResult .enc b
  else b

/-- `ENC.U` (41_encode.md R132): the next transfer of the operation, at an instance with SIGNED = 0. -/
def execEncU (s : State) : Host.Outcome State Fault Refusal :=
  s.inInstance false "ENC.U" (fun b => .next (encEdge false b))

/-- `ENC.S` (41_encode.md R133): the next transfer of the operation, at an instance with SIGNED = 1. -/
def execEncS (s : State) : Host.Outcome State Fault Refusal :=
  s.inInstance true "ENC.S" (fun b => .next (encEdge true b))

end Sys2Proof.Machine
end

