-- ==== Sys2Proof/Machine/Dispatch.lean ====
section
/-!
DEFINITION. One arm per row of the opcode table, each one direct call of that row's meaning.
-/

namespace Sys2Proof.Machine

def exec (i : Instr) (s : State) : Host.Outcome State Fault Refusal :=
  match i with
  | .encU => Sys2Proof.Machine.execEncU s
  | .encS => Sys2Proof.Machine.execEncS s
  | .decU => Sys2Proof.Machine.execDecU s
  | .decS => Sys2Proof.Machine.execDecS s
  | .byteCont p => Sys2Proof.Machine.execByteCont p s
  | .byteFinal p => Sys2Proof.Machine.execByteFinal p s

end Sys2Proof.Machine
end

