-- ==== Sys2Proof/Machine/Edge.lean ====
section
/-!
DEFINITION. One rising edge of `clk`: the ports are sampled, `rst` wins over everything (70 R240), and otherwise each unit
takes the step of its transfer, if it has one (20_memory.md R56, R57). What a unit runs at an edge is selected by the
static parameter SIGNED alone (00_scope.md R7).
-/

namespace Sys2Proof.Machine

/-- The operation of unit `ENC` in this instance (00_scope.md R7). -/
def State.encOperation (s : State) : Instr := if s.signed then .encS else .encU

/-- The operation of unit `DEC` in this instance (00_scope.md R7). -/
def State.decOperation (s : State) : Instr := if s.signed then .decS else .decU

/-- The machine at its next edge, the ports sampled. -/
def State.sampled (s : State) : State := s.withBlock (samplePorts s.block)

/-- An edge with `rst = 0`: both units run. They share no register, so the order in which this takes them cannot be
observed (20_memory.md R66; log 4). -/
def runUnits (s : State) : Host.Outcome State Fault Refusal :=
  andThen (exec s.encOperation s) (fun t => exec t.decOperation t)

/-- One rising edge of `clk`. -/
def clockEdge (s : State) : Host.Outcome State Fault Refusal :=
  let t := s.sampled
  if t.block.ports.rst then .next (t.withBlock (resetRegisters t.block)) else runUnits t

/-! ### Placing an instruction before the next edge -/

/-- An edge at which every handshake of unit `ENC` has the environment's side raised, the value offered being 0: the unit
takes its next step, whatever its state. -/
def encDrive (w : Nat) : PortIn w :=
  { PortIn.silent w with encInValid := true, encSnkReady := true, encResReady := true }

/-- An edge at which every handshake of unit `DEC` has the environment's side raised, the byte offered being `x`. -/
def decDrive (w : Nat) (x : Byte) : PortIn w :=
  { PortIn.silent w with decSrcValid := true, decSrcByte := x, decResReady := true }

/-- An edge at which the source offers the byte `x` and nothing else happens. -/
def byteDrive (w : Nat) (x : Byte) : PortIn w :=
  { PortIn.silent w with decSrcValid := true, decSrcByte := x }

/-- The block with one edge placed before those of its agenda. -/
def placeEdge {w : Nat} (p : PortIn w) (b : Block w) : Block w := { b with agenda := p :: b.agenda }

/-- The machine whose next edge runs the instruction: for an operation the instance is given its SIGNED and the unit's
handshakes are raised; for a wire byte the source offers it (log 12). -/
def State.placeInstr (s : State) (i : Instr) : State :=
  match i with
  | .encU => { s with signed := false, block := placeEdge (encDrive s.width) s.block }
  | .encS => { s with signed := true, block := placeEdge (encDrive s.width) s.block }
  | .decU => { s with signed := false, block := placeEdge (decDrive s.width 0#8) s.block }
  | .decS => { s with signed := true, block := placeEdge (decDrive s.width 0#8) s.block }
  | .byteCont p => { s with block := placeEdge (byteDrive s.width (wireByte true p)) s.block }
  | .byteFinal p => { s with block := placeEdge (byteDrive s.width (wireByte false p)) s.block }

end Sys2Proof.Machine
end

