-- ==== Sys2Proof/Machine/Operation.lean ====
section
/-!
DEFINITION. The operation level (00_scope.md R10): encode and decode as pure functions from a value to bytes (41_encode.md
R131) and from a source's answers to a result (42_decode.md R161), and the integers a byte sequence denotes (30_encoding.md
R85, R86). They are built from the same pieces as the steps of the two units.
-/

namespace Sys2Proof.Machine

/-! ### Encode -/

/-- `enc` on the value that is left, at most `fuel` bytes (41_encode.md R131). -/
def encFrom {w : Nat} (signed : Bool) : Nat → BitVec w → List Byte
  | 0, _ => []
  | fuel + 1, x =>
    if isLast signed x then [encByte signed x] else encByte signed x :: encFrom signed fuel (rsh signed x 7)

/-- `enc(W, SIGNED, x)` (41_encode.md R131): the recursion ends within `N_ENC_MAX` bytes (R139). -/
def enc {w : Nat} (signed : Bool) (x : BitVec w) : List Byte := encFrom signed (nEncMax w) x

/-! ### Decode -/

/-- What a decode makes of the answers its source has given so far. -/
inductive DecRun (w : Nat) where
  /-- It has ended with a result after taking this many bytes. -/
  | finished (r : OpResult (BitVec w)) (consumed : Nat)
  /-- It waits for the next byte (70 R254): the accumulator, the offset, the bytes taken. -/
  | waiting (acc : BitVec w) (off consumed : Nat)
  /-- A left shift by `W` or more was asked for (93 U3). -/
  | noShift
  deriving DecidableEq, Repr

/-- The loop of `dec` (42_decode.md R161) from the accumulator `acc`, the offset `off` and `n` bytes taken. -/
def decFrom {w : Nat} (signed : Bool) : List SrcAnswer → BitVec w → Nat → Nat → DecRun w
  | [], acc, off, n => .waiting acc off n
  | .fail :: _, _, _, n => .finished .ioError n
  | .byte x :: rest, acc, off, n =>
    match absorb signed x acc off with
    | .more acc1 => decFrom signed rest acc1 (off + 7) (n + 1)
    | .value v => .finished (.ok v) (n + 1)
    | .invalid => .finished .invalidData (n + 1)
    | .noShift => .noShift

/-- `dec(W, SIGNED, src)` (42_decode.md R161). -/
def dec (w : Nat) (signed : Bool) (src : List SrcAnswer) : DecRun w := decFrom signed src 0#w 0 0

/-- The answers of a source that delivers these bytes. -/
def answers (bs : List Byte) : List SrcAnswer := bs.map .byte

/-! ### What a byte sequence denotes -/

/-- A wire form (30_encoding.md R82): the flag is set on every byte but the last, and clear on the last. -/
def isWireForm : List Byte → Bool
  | [] => false
  | [b] => !contFlag b
  | b :: c :: rest => contFlag b && isWireForm (c :: rest)

/-- `Vu(b)`, the unsigned reading (30_encoding.md R85). -/
def unsignedReading : List Byte → Nat
  | [] => 0
  | b :: rest => (payload b).toNat + 2 ^ 7 * unsignedReading rest

/-- Bit 6 of the payload of the last byte: the sign of the signed reading (30_encoding.md R86). -/
def signBit (bs : List Byte) : Bool :=
  match bs.getLast? with
  | some b => (payload b).getLsbD 6
  | none => false

/-- `Vs(b)`, the signed reading (30_encoding.md R86). -/
def signedReading (bs : List Byte) : Int :=
  (unsignedReading bs : Int) - (if signBit bs then 2 ^ (7 * bs.length) else 0)

/-- The integer a sequence denotes in the given signedness. -/
def reading (signed : Bool) (bs : List Byte) : Int :=
  if signed then signedReading bs else unsignedReading bs

/-- The integer has a `w`-bit representation of the given signedness. -/
abbrev Representable (w : Nat) (signed : Bool) (v : Int) : Prop :=
  if signed then -2 ^ (w - 1) ≤ v ∧ v < 2 ^ (w - 1) else 0 ≤ v ∧ v < 2 ^ w

end Sys2Proof.Machine
end

