-- ==== Sys2Proof/Config.lean ====
section
/-!
DEFINITION. The free values: what the spec leaves unspecified and no proof can see. The parameters `W` and `SIGNED`
(00_scope.md R6, R7) are NOT here: one machine type covers every instance, so they stand in State (log 1).

Each constant has no body. Its `Nat` argument is the model's draw counter (`Block.draw`), so an unspecified output may
differ from one clock edge to the next (10_state.md R36: "a model must treat each as a free draw"; log 8).
-/

namespace Sys2Proof.Config

/-- `enc_snk_byte` outside `E_EMIT` (10_state.md R36, 93 U2). -/
opaque freeSnkByte : Nat → BitVec 8

/-- `enc_res_status` outside `E_DONE` (10_state.md R36, 93 U2). -/
opaque freeEncStatus : Nat → BitVec 2

/-- `enc_res_count` outside `E_DONE`, or there with a status other than `ST_OK` (10_state.md R36, 93 U2). -/
opaque freeEncCount : Nat → BitVec 5

/-- `dec_res_status` outside `D_DONE` (10_state.md R36, 93 U2). -/
opaque freeDecStatus : Nat → BitVec 2

/-- `dec_res_value` outside `D_DONE`, or there with a status other than `ST_OK` (10_state.md R36, 93 U1). -/
opaque freeDecValue : (w : Nat) → Nat → BitVec w

end Sys2Proof.Config
end

