-- ==== Sys2Proof/Machine/Ports.lean ====
section
/-!
DEFINITION. The output ports as functions of the registers (10_state.md R34, R35). Where no line of those rules gives an
output it is unspecified (R36) and stands here as a free value of the draw counter (log 8); no step reads one (93 U2).
-/

namespace Sys2Proof.Machine

/-- The output ports of the block (10_state.md R26, R27). -/
structure PortOut (w : Nat) where
  /-- `enc_in_ready`. -/
  encInReady : Bool
  /-- `enc_snk_valid`. -/
  encSnkValid : Bool
  /-- `enc_snk_byte`. -/
  encSnkByte : Byte
  /-- `enc_res_valid`. -/
  encResValid : Bool
  /-- `enc_res_status`. -/
  encResStatus : BitVec 2
  /-- `enc_res_count`. -/
  encResCount : BitVec 5
  /-- `dec_src_ready`. -/
  decSrcReady : Bool
  /-- `dec_res_valid`. -/
  decResValid : Bool
  /-- `dec_res_status`. -/
  decResStatus : BitVec 2
  /-- `dec_res_value`. -/
  decResValue : BitVec w
  deriving DecidableEq, Repr

/-- The outputs in the present state (10_state.md R34, R35, R36). -/
def outputs {w : Nat} (signed : Bool) (b : Block w) : PortOut w where
  encInReady := b.enc.state == .idle
  encSnkValid := b.enc.state == .emit
  encSnkByte := if b.enc.state = .emit then encByte signed b.enc.val else Config.freeSnkByte b.draw
  encResValid := b.enc.state == .done
  encResStatus := if b.enc.state = .done then statusCode b.enc.status else Config.freeEncStatus b.draw
  encResCount := if b.enc.state = .done ∧ b.enc.status = .ok then b.enc.cnt else Config.freeEncCount b.draw
  decSrcReady := b.dec.state == .recv
  decResValid := b.dec.state == .done
  decResStatus := if b.dec.state = .done then statusCode b.dec.status else Config.freeDecStatus b.draw
  decResValue := if b.dec.state = .done ∧ b.dec.status = .ok then b.dec.acc else Config.freeDecValue w b.draw

/-- The outputs of the machine. -/
def State.outputs (s : State) : PortOut s.width := Sys2Proof.Machine.outputs s.signed s.block

end Sys2Proof.Machine
end

