-- ==== Sys2Proof/Safety.lean ====
section
/-!
DEFINITION. What counts as a safe run, in the terms the claims use: the invariant of 10_state.md R37 (with what it needs to be
kept by every step), runs of several edges, and what an agenda says to one unit.
-/

namespace Sys2Proof.Machine

/-! ### The invariant of 10_state.md R37 -/

/-- Unit `ENC`: its status is never `ST_INVALID_DATA` (10_state.md R24), nor is a result it gave (41_encode.md R136); the
count stays within `N_ENC_MAX`, and in `E_EMIT` leaves room for the bytes still to come, so `e_cnt < N_ENC_MAX` there; in
`E_DONE` with `ST_OK` it is at least 1 (R37). -/
abbrev EncInv {w : Nat} (signed : Bool) (b : Block w) : Prop :=
  b.enc.status ≠ .invalidData ∧
  (∀ r ∈ b.encResults, r ≠ .invalidData) ∧
  b.enc.cnt.toNat ≤ nEncMax w ∧
  (b.enc.state = .emit → b.enc.cnt.toNat + (enc signed b.enc.val).length ≤ nEncMax w) ∧
  (b.enc.state = .done → b.enc.status = .ok → 1 ≤ b.enc.cnt.toNat)

/-- The bytes of the decode in flight: the last `d_off / 7` bytes taken from the source (10_state.md R23). -/
def inFlight {w : Nat} (b : Block w) : List Byte := b.taken.drop (b.taken.length - b.dec.off.toNat / 7)

/-- Unit `DEC`: the offset is a multiple of 7 up to `MAX_SHIFT` (10_state.md R29), and in `D_RECV` the accumulator has no
bit at or above it, `d_off / 7` bytes have been taken for this operation, every one with its flag set, and the accumulator is
what they read as (R37; R85). -/
abbrev DecInv {w : Nat} (b : Block w) : Prop :=
  b.dec.off.toNat % 7 = 0 ∧
  b.dec.off.toNat ≤ maxShift w ∧
  (b.dec.state = .recv →
    b.dec.acc.toNat < 2 ^ b.dec.off.toNat ∧
    b.dec.off.toNat / 7 ≤ b.taken.length ∧
    (∀ x ∈ inFlight b, contFlag x = true) ∧
    b.dec.acc.toNat = unsignedReading (inFlight b))

/-- The invariant of the machine: a supported instance, and both units' parts. -/
abbrev State.Inv (s : State) : Prop :=
  supportedWidth s.width = true ∧ EncInv s.signed s.block ∧ DecInv s.block

/-! ### Runs -/

/-- `n` edges one after another, stopping at the first that does not answer a next state. -/
def run : Nat → State → Host.Outcome State Fault Refusal
  | 0, s => .next s
  | n + 1, s => andThen (step s) (run n)

/-- No operation is in flight (70 R263). -/
abbrev State.Quiescent (s : State) : Prop :=
  s.block.enc.state = .idle ∧ s.block.dec.state = .recv ∧ s.block.dec.off = 0#8

/-- The decoder is about to begin an operation (42_decode.md R178): in every register that is read it is in its reset
state (R179). -/
abbrev DecFresh {w : Nat} (b : Block w) : Prop :=
  b.dec.state = .recv ∧ b.dec.acc = 0#w ∧ b.dec.off = 0#8

/-- What the source answers over these edges, while the decoder asks: one answer at each edge with `dec_src_valid = 1`
(20_memory.md R53, R56). -/
def sourceAnswers {w : Nat} (edges : List (PortIn w)) : List SrcAnswer :=
  (edges.filter (·.decSrcValid)).map (fun p => if p.decSrcErr then .fail else .byte p.decSrcByte)

/-- How many times over these edges the sink is ready (20_memory.md R54, R56). -/
def sinkReadyEdges {w : Nat} (edges : List (PortIn w)) : Nat := edges.countP (·.encSnkReady)

/-- The status a result is reported by (10_state.md R24). -/
def statusOf {α : Type} : OpResult α → Status
  | .ok _ => .ok
  | .ioError => .ioError
  | .invalidData => .invalidData

end Sys2Proof.Machine
end

