-- ==== Sys2Proof/Certificates/Slice0/Obligations.lean ====
section
/-!
DEFINITION. The statements for the provers. Each docstring names the rule of spec/ it formalises; where a clause rests on a
choice of the model, the docstring names the log entry.
-/

open Sys2Proof Sys2Proof.Machine

/-! ### Encoding of the table -/

/-- Words written out bit by bit from 30_encoding.md R80, R81, R94 decode to what they stand for. -/
def Obligations.SpecWordsDecode : Prop :=
  decode (.selector 0b00#2) = .encU ∧ decode (.selector 0b01#2) = .encS ∧
  decode (.selector 0b10#2) = .decU ∧ decode (.selector 0b11#2) = .decS ∧
  decode (.wire 0b11000010#8) = .byteCont 0b1000010#7 ∧ decode (.wire 0b00001010#8) = .byteFinal 0b0001010#7

/-- 30_encoding.md R81: a byte is classed by its flag alone, and belongs to exactly one class. -/
def Obligations.WireByteClassIsItsFlag : Prop :=
  ∀ b : Byte,
    (0x80 ≤ b.toNat → decodeWire b = .byteCont (b.setWidth 7)) ∧
    (b.toNat ≤ 0x7F → decodeWire b = .byteFinal (b.setWidth 7)) ∧
    (b &&& 0x80#8 = 0x80#8 ↔ ∃ p, decodeWire b = .byteCont p) ∧
    (b &&& 0x80#8 = 0x00#8 ↔ ∃ p, decodeWire b = .byteFinal p)

/-- 30_encoding.md R80: bit 7 of a wire byte is the flag, bits 6:0 are the payload. -/
def Obligations.WireByteHasTwoFields : Prop :=
  ∀ (c : Bool) (p : Payload), (wireByte c p).getLsbD 7 = c ∧ ∀ i < 7, (wireByte c p).getLsbD i = p.getLsbD i

/-- Decoding and encoding are inverse, for every instruction and every code (30_encoding.md sections 1 and 6). -/
def Obligations.DecodeAndEncodeAreInverse : Prop :=
  (∀ i : Instr, decode (encode i) = i) ∧ ∀ c : Code, encode (decode c) = c

/-- Exactly one row of spec/opcode_table.json accepts a code, and it is the row of the instruction decoded (30_encoding.md
sections 1 and 6). -/
def Obligations.EveryCodeHasExactlyOneRow : Prop :=
  ∀ c : Code, (opcodeTable.filter (fun r => r.accepts c)).map Row.mnemonic = [(decode c).mnemonic]

/-! ### Constants and primitives -/

/-- 00_scope.md R8: the derived constants, in general and for the admitted widths. -/
def Obligations.DerivedConstants : Prop :=
  (∀ w : Nat, maxShift w = w / 7 * 7 ∧ boundaryBits w = w - maxShift w ∧ boundaryBits w ≤ 6 ∧
    maxLastByte w = 2 ^ boundaryBits w - 1 ∧ nDecMax w = w / 7 + 1 ∧ 7 * nEncMax w < w + 7 ∧ w ≤ 7 * nEncMax w) ∧
  [8, 16, 32, 64, 128].map (fun w => (maxShift w, boundaryBits w, maxLastByte w, nDecMax w, nEncMax w)) =
    [(7, 1, 0x01, 2, 2), (14, 2, 0x03, 3, 3), (28, 4, 0x0F, 5, 5), (63, 1, 0x01, 10, 10), (126, 2, 0x03, 19, 19)]

/-- 40_numeric_primitives.md R114: the left shift has a value exactly below `W`, which one it is, and that no payload bit is
dropped where the decoder shifts. -/
def Obligations.LeftShiftIsPartial : Prop :=
  ∀ (w : Nat) (a : BitVec w) (n : Nat),
    (w ≤ n → shl a n = none) ∧
    (n < w → ∃ r, shl a n = some r ∧
      (∀ i < w, r.getLsbD i = if n ≤ i then a.getLsbD (i - n) else false) ∧
      r.toNat = a.toNat * 2 ^ n % 2 ^ w) ∧
    (∀ p : Payload, n % 7 = 0 → n < maxShift w →
      ∃ r, shl (zextPayload w p) n = some r ∧ r.toNat = p.toNat * 2 ^ n) ∧
    (∀ p : Payload, 1 ≤ boundaryBits w →
      ∃ r, shl (zextBoundary w p) (maxShift w) = some r ∧
        r.toNat = (p.setWidth (boundaryBits w)).toNat * 2 ^ maxShift w)

/-- 40_numeric_primitives.md R115: the logical right shift, bit by bit and as a number, for every amount. -/
def Obligations.LogicalRightShift : Prop :=
  ∀ (w : Nat) (a : BitVec w) (n : Nat),
    (∀ i < w, (shr a n).getLsbD i = if i + n < w then a.getLsbD (i + n) else false) ∧
    (shr a n).toNat = a.toNat / 2 ^ n

/-- 40_numeric_primitives.md R116: the arithmetic right shift, bit by bit and as a number (rounding toward minus infinity),
and what repeated shifting by 7 reaches. -/
def Obligations.ArithmeticRightShift : Prop :=
  ∀ (w : Nat) (a : BitVec w),
    (∀ n, (∀ i < w, (sar a n).getLsbD i = if i + n < w then a.getLsbD (i + n) else a.msb) ∧
      (sar a n).toInt = a.toInt / 2 ^ n) ∧
    sar (0#w) 7 = 0#w ∧ sar (BitVec.allOnes w) 7 = BitVec.allOnes w ∧
    ∀ k, nEncMax w ≤ k → Nat.iterate (fun x => sar x 7) k a = if a.msb then BitVec.allOnes w else 0#w

/-- 40_numeric_primitives.md R118, R119: the conversions to a byte and from a payload. -/
def Obligations.ByteConversions : Prop :=
  ∀ (w : Nat) (signed : Bool) (a : BitVec w) (p : Payload),
    (∀ i < 8, (trunc8 signed a).getLsbD i = if i < w then a.getLsbD i else (signed && a.msb)) ∧
    (∀ i < 7, (low7 signed a).getLsbD i = if i < w then a.getLsbD i else (signed && a.msb)) ∧
    (low7 signed a).setWidth 8 = trunc8 signed a &&& 0x7F#8 ∧
    (zextPayload w p).toNat = p.toNat % 2 ^ w ∧
    (7 ≤ w → (zextPayload w p).toNat = p.toNat)

/-- 41_encode.md section 2, the equivalent forms of `last` (an inference the spec marks as derived): a signed byte is the
last one exactly when the value lies in -64 .. 63, an unsigned one when it is at most 127. -/
def Obligations.LastByteByRange : Prop :=
  ∀ (w : Nat), 1 ≤ w → ∀ x : BitVec w,
    (isLast false x = true ↔ x.toNat ≤ 127) ∧
    (isLast true x = true ↔ -64 ≤ x.toInt ∧ x.toInt ≤ 63) ∧
    (isLast true x = true ↔ sar x 6 = 0#w ∨ sar x 6 = BitVec.allOnes w)

/-! ### Unit `ENC` -/

/-- 41_encode.md R140, step `ENC.ACCEPT`, for both variants; and the unit is not ready for another value until its result has
been taken. -/
def Obligations.EncAcceptTakesTheValue : Prop :=
  (∀ s : State, s.block.ports.rst = false → s.block.ports.encInValid = true → s.block.enc.state = .idle →
    let t := s.withBlock { s.block with enc :=
      { state := .emit, val := s.block.ports.encInValue, cnt := 0#5, status := s.block.enc.status } }
    (s.signed = false → exec .encU s = .next t) ∧ (s.signed = true → exec .encS s = .next t)) ∧
  ∀ s : State, s.outputs.encInReady = true ↔ s.block.enc.state = .idle

/-- 41_encode.md section 4, step `ENC.WRITE(ok)` of `ENC.U`: the byte handed over, the last-byte test on the logically
shifted value, and the registers.

What the statement says of bytes written, bytes taken and results
delivered speaks of the model's record of the channels (log 6). -/
def Obligations.EncWriteOkUnsigned : Prop :=
  ∀ s : State, s.signed = false → s.block.ports.rst = false → s.block.ports.encSnkReady = true →
    s.block.ports.encSnkErr = false → s.block.enc.state = .emit →
    let x := s.block.enc.val
    let nxt := shr x 7
    let byte := wireByte (nxt != 0#s.width) (x.setWidth 7)
    s.outputs.encSnkByte = byte ∧
    exec .encU s = .next (s.withBlock { s.block with
      sink := s.block.sink ++ [byte]
      enc := if nxt = 0#s.width then { s.block.enc with cnt := s.block.enc.cnt + 1#5, status := .ok, state := .done }
             else { s.block.enc with cnt := s.block.enc.cnt + 1#5, val := nxt } })

/-- 41_encode.md section 4, step `ENC.WRITE(ok)` of `ENC.S`: the last-byte test on the arithmetically shifted value and bit 6
of the byte.

What the statement says of bytes written, bytes taken and results
delivered speaks of the model's record of the channels (log 6). -/
def Obligations.EncWriteOkSigned : Prop :=
  ∀ s : State, s.signed = true → s.block.ports.rst = false → s.block.ports.encSnkReady = true →
    s.block.ports.encSnkErr = false → s.block.enc.state = .emit →
    let x := s.block.enc.val
    let nxt := sar x 7
    let low := x.signExtend 7
    let last := (nxt = 0#s.width ∧ low.getLsbD 6 = false) ∨ (nxt = BitVec.allOnes s.width ∧ low.getLsbD 6 = true)
    let byte := wireByte (!decide last) low
    s.outputs.encSnkByte = byte ∧
    exec .encS s = .next (s.withBlock { s.block with
      sink := s.block.sink ++ [byte]
      enc := if last then { s.block.enc with cnt := s.block.enc.cnt + 1#5, status := .ok, state := .done }
             else { s.block.enc with cnt := s.block.enc.cnt + 1#5, val := nxt } })

/-- 41_encode.md section 4, step `ENC.WRITE(fail)`, for both variants: `IO_ERROR`, the count and the value unchanged, no further
byte offered, and only the result transfer possible. What the sink holds afterwards is the model's form of 93 U5 (log 7). -/
def Obligations.EncFailedWriteEndsTheOperation : Prop :=
  ∀ s : State, s.block.ports.rst = false → s.block.ports.encSnkReady = true → s.block.ports.encSnkErr = true →
    s.block.enc.state = .emit →
    let t := s.withBlock { s.block with
      enc := { s.block.enc with status := .ioError, state := .done }
      sink := if s.block.ports.snkKeeps then s.block.sink ++ [s.outputs.encSnkByte] else s.block.sink }
    (s.signed = false → exec .encU s = .next t) ∧ (s.signed = true → exec .encS s = .next t) ∧
    t.outputs.encSnkValid = false ∧ t.outputs.encInReady = false ∧ t.outputs.encResValid = true ∧
    t.outputs.encResStatus = 0b01#2

/-- 41_encode.md R142, step `ENC.RESULT`, for both variants: the count with `ST_OK`, no count with `ST_IO_ERROR`; the other
registers keep their values.

What the statement says of bytes written, bytes taken and results
delivered speaks of the model's record of the channels (log 6). -/
def Obligations.EncResultIsDelivered : Prop :=
  ∀ s : State, s.block.ports.rst = false → s.block.ports.encResReady = true → s.block.enc.state = .done →
    s.block.enc.status ≠ .invalidData →
    let r : OpResult (BitVec 5) := if s.block.enc.status = .ok then .ok s.block.enc.cnt else .ioError
    let t := s.withBlock { s.block with
      enc := { s.block.enc with state := .idle }, encResults := s.block.encResults ++ [r] }
    (s.signed = false → exec .encU s = .next t) ∧ (s.signed = true → exec .encS s = .next t) ∧
    s.outputs.encResStatus = statusCode s.block.enc.status ∧
    (s.block.enc.status = .ok → s.outputs.encResCount = s.block.enc.cnt)

/-- 20_memory.md section 3: at an edge with no transfer on a channel of `ENC`, nothing of the machine changes, whatever the
other ports carry. -/
def Obligations.EncWithoutTransferKeepsAll : Prop :=
  ∀ s : State,
    s.block.ports.rst = true ∨
      ((s.block.enc.state = .idle → s.block.ports.encInValid = false) ∧
       (s.block.enc.state = .emit → s.block.ports.encSnkReady = false) ∧
       (s.block.enc.state = .done → s.block.ports.encResReady = false)) →
    (s.signed = false → exec .encU s = .next s) ∧ (s.signed = true → exec .encS s = .next s)

/-- The frame of `ENC.U` and `ENC.S` (10_state.md sections 1 and 2): only the registers of `ENC`, the sink and the results on
`ENC.RES` can change; the sink by the byte offered, and only at a transfer on `ENC.SNK`.

What the statement says of bytes written, bytes taken and results
delivered speaks of the model's record of the channels (log 6). -/
def Obligations.EncFrame : Prop :=
  ∀ (i : Instr) (s t : State), i = .encU ∨ i = .encS → exec i s = .next t →
    ∃ (e : EncUnit s.width) (k : List Byte) (r : List (OpResult (BitVec 5))),
      t = s.withBlock { s.block with enc := e, sink := k, encResults := r } ∧
      (k = s.block.sink ∨
        (s.block.enc.state = .emit ∧ s.block.ports.encSnkReady = true ∧ k = s.block.sink ++ [s.outputs.encSnkByte])) ∧
      (r = s.block.encResults ∨
        (s.block.enc.state = .done ∧ s.block.ports.encResReady = true ∧ ∃ x, r = s.block.encResults ++ [x]))

/-! ### Unit `DEC` -/

/-- 42_decode.md section 5: a failing read ends the decode with `IO_ERROR` at any offset and whatever the byte lines carry,
for both variants, and changes nothing else. -/
def Obligations.DecFailingReadIsIoError : Prop :=
  ∀ s : State, s.block.ports.rst = false → s.block.ports.decSrcValid = true → s.block.ports.decSrcErr = true →
    s.block.dec.state = .recv →
    let t := s.withBlock { s.block with dec := { s.block.dec with status := .ioError, state := .done } }
    (s.signed = false → exec .decU s = .next t) ∧ (s.signed = true → exec .decS s = .next t)

/-- 42_decode.md section 5 with 30_encoding.md section 1: a byte that `DEC.U` or `DEC.S` reads is run as the instruction of
its class, and up to the boundary offset that answers a next state.

What the statement says of bytes written, bytes taken and results
delivered speaks of the model's record of the channels (log 6). -/
def Obligations.DecReadRunsTheByteClass : Prop :=
  ∀ s : State, s.block.ports.rst = false → s.block.ports.decSrcValid = true → s.block.ports.decSrcErr = false →
    s.block.dec.state = .recv → s.block.dec.off.toNat ≤ maxShift s.width →
    ∃ t, exec (decodeWire s.block.ports.decSrcByte) s = .next t ∧
      t.block.taken = s.block.taken ++ [s.block.ports.decSrcByte] ∧
      (s.signed = false → exec .decU s = .next t) ∧ (s.signed = true → exec .decS s = .next t)

/-- 42_decode.md section 5: a continuation byte below the boundary is accumulated and the unit asks for the next.

What the statement says of bytes written, bytes taken and results
delivered speaks of the model's record of the channels (log 6). -/
def Obligations.ByteContBelowBoundary : Prop :=
  ∀ (s : State) (p : Payload), s.block.dec.state = .recv → s.block.dec.off.toNat < maxShift s.width →
    exec (.byteCont p) s = .next (s.withBlock { s.block with
      taken := s.block.taken ++ [wireByte true p]
      dec := { s.block.dec with
        acc := s.block.dec.acc ||| (p.setWidth s.width <<< s.block.dec.off.toNat), off := s.block.dec.off + 7#8 } })

/-- 42_decode.md R168: a boundary byte with its flag set is `INVALID_DATA`, whatever its payload; and every boundary byte
ends the operation, the offset staying where it is.

What the statement says of bytes written, bytes taken and results
delivered speaks of the model's record of the channels (log 6). -/
def Obligations.BoundaryByteMustBeFinal : Prop :=
  ∀ (s : State) (p : Payload), s.block.dec.state = .recv → s.block.dec.off.toNat = maxShift s.width →
    exec (.byteCont p) s = .next (s.withBlock { s.block with
      taken := s.block.taken ++ [wireByte true p]
      dec := { s.block.dec with status := .invalidData, state := .done } }) ∧
    ∃ d : DecUnit s.width, d.state = .done ∧ d.off = s.block.dec.off ∧
      exec (.byteFinal p) s = .next (s.withBlock { s.block with taken := s.block.taken ++ [wireByte false p], dec := d })

/-- 42_decode.md section 5: a final byte below the boundary ends the operation with a value, sign-extended from bit 6 in the
signed variant.

What the statement says of bytes written, bytes taken and results
delivered speaks of the model's record of the channels (log 6). -/
def Obligations.ByteFinalBelowBoundary : Prop :=
  ∀ (s : State) (p : Payload), s.block.dec.state = .recv → s.block.dec.off.toNat < maxShift s.width →
    let off := s.block.dec.off.toNat
    let acc1 := s.block.dec.acc ||| (p.setWidth s.width <<< off)
    exec (.byteFinal p) s = .next (s.withBlock { s.block with
      taken := s.block.taken ++ [wireByte false p]
      dec := { s.block.dec with
        status := .ok, state := .done
        acc := if s.signed = true ∧ p.getLsbD 6 = true ∧ off + 7 < s.width
               then acc1 ||| (BitVec.allOnes s.width <<< (off + 7)) else acc1 } })

/-- 42_decode.md R165: in the states of the invariant a byte read below the boundary puts its payload at the offset, into
bits that were zero, and leaves every other bit; an operation starts at zero, and the offset grows by 7 a byte. -/
def Obligations.AccumulatePlacesThePayload : Prop :=
  (∀ (s : State) (p : Payload), s.Inv → s.block.dec.state = .recv → s.block.dec.off.toNat < maxShift s.width →
    let off := s.block.dec.off.toNat
    let placed := fun (acc : BitVec s.width) => ∀ i < s.width,
      acc.getLsbD i = if off ≤ i ∧ i < off + 7 then p.getLsbD (i - off) else s.block.dec.acc.getLsbD i
    (∀ i, off ≤ i → s.block.dec.acc.getLsbD i = false) ∧
    (∃ b : Block s.width, exec (.byteCont p) s = .next (s.withBlock b) ∧ placed b.dec.acc ∧
      b.dec.off.toNat = off + 7) ∧
    (s.signed = false → ∃ b : Block s.width, exec (.byteFinal p) s = .next (s.withBlock b) ∧ placed b.dec.acc)) ∧
  (∀ w signed, DecFresh (State.resetFor w signed).block) ∧
  (∀ s : State, DecFresh (s.withBlock (giveResult .dec s.block)).block)

/-- 42_decode.md R167, the unsigned boundary check: with `uval(p) > MAX_LAST_BYTE` (equivalently a payload bit at or above
`K`) the byte is `INVALID_DATA`, otherwise it contributes its low `K` bits.

What the statement says of bytes written, bytes taken and results
delivered speaks of the model's record of the channels (log 6). -/
def Obligations.UnsignedBoundaryCheck : Prop :=
  ∀ (s : State) (p : Payload), s.signed = false → s.block.dec.state = .recv →
    s.block.dec.off.toNat = maxShift s.width →
    let k := boundaryBits s.width
    let taken := s.block.taken ++ [wireByte false p]
    (maxLastByte s.width < p.toNat ↔ ∃ i, k ≤ i ∧ p.getLsbD i = true) ∧
    (maxLastByte s.width < p.toNat → exec (.byteFinal p) s = .next (s.withBlock { s.block with
      taken := taken, dec := { s.block.dec with status := .invalidData, state := .done } })) ∧
    (p.toNat ≤ maxLastByte s.width → exec (.byteFinal p) s = .next (s.withBlock { s.block with
      taken := taken
      dec := { s.block.dec with
        acc := s.block.dec.acc ||| ((p.setWidth k).setWidth s.width <<< maxShift s.width)
        status := .ok, state := .done } }))

/-- 42_decode.md R171, the signed boundary check for `K ≥ 1`: legal exactly when payload bits 6 down to `K-1` are all equal,
that is below `2^(K-1)` or from `128 - 2^(K-1)` up; a legal byte contributes its low `K` bits, the top one being the sign.

What the statement says of bytes written, bytes taken and results
delivered speaks of the model's record of the channels (log 6). -/
def Obligations.SignedBoundaryCheck : Prop :=
  ∀ (s : State) (p : Payload), s.signed = true → s.block.dec.state = .recv →
    s.block.dec.off.toNat = maxShift s.width → 1 ≤ boundaryBits s.width →
    let k := boundaryBits s.width
    let taken := s.block.taken ++ [wireByte false p]
    let legal := p.toNat < 2 ^ (k - 1) ∨ 128 - 2 ^ (k - 1) ≤ p.toNat
    let acc := s.block.dec.acc ||| ((p.setWidth k).setWidth s.width <<< maxShift s.width)
    (legal ↔ (∀ i, k - 1 ≤ i → i ≤ 6 → p.getLsbD i = false) ∨ (∀ i, k - 1 ≤ i → i ≤ 6 → p.getLsbD i = true)) ∧
    (¬legal → exec (.byteFinal p) s = .next (s.withBlock { s.block with
      taken := taken, dec := { s.block.dec with status := .invalidData, state := .done } })) ∧
    (legal → exec (.byteFinal p) s = .next (s.withBlock { s.block with
      taken := taken, dec := { s.block.dec with acc := acc, status := .ok, state := .done } })) ∧
    (s.block.dec.acc.msb = false → acc.msb = p.getLsbD (k - 1))

/-- 42_decode.md R172, the boundary byte when `K = 0`: it contributes no bit, and is legal only as `0x00` (unsigned) or as the
extension of the sign already written (signed).

What the statement says of bytes written, bytes taken and results
delivered speaks of the model's record of the channels (log 6). -/
def Obligations.BoundaryCheckOfMultiplesOfSeven : Prop :=
  ∀ (s : State) (p : Payload), s.block.dec.state = .recv → s.block.dec.off.toNat = maxShift s.width →
    boundaryBits s.width = 0 →
    let taken := s.block.taken ++ [wireByte false p]
    let legal := if s.signed = true
      then (p = 0x00#7 ∧ s.block.dec.acc.msb = false) ∨ (p = 0x7F#7 ∧ s.block.dec.acc.msb = true)
      else p = 0x00#7
    (legal → exec (.byteFinal p) s = .next (s.withBlock { s.block with
      taken := taken, dec := { s.block.dec with status := .ok, state := .done } })) ∧
    (¬legal → exec (.byteFinal p) s = .next (s.withBlock { s.block with
      taken := taken, dec := { s.block.dec with status := .invalidData, state := .done } }))

/-- 42_decode.md R169: a byte below the boundary is accepted whatever its payload: it goes on, or it ends with a value, never
with `INVALID_DATA`.

What the statement says of bytes written, bytes taken and results
delivered speaks of the model's record of the channels (log 6). -/
def Obligations.OnlyTheBoundaryByteIsChecked : Prop :=
  ∀ (s : State) (x : Byte), s.block.dec.state = .recv → s.block.dec.off.toNat < maxShift s.width →
    ∃ d : DecUnit s.width,
      exec (decodeWire x) s = .next (s.withBlock { s.block with taken := s.block.taken ++ [x], dec := d }) ∧
      (contFlag x = true → d.state = .recv ∧ d.off = s.block.dec.off + 7#8 ∧ d.status = s.block.dec.status) ∧
      (contFlag x = false → d.state = .done ∧ d.status = .ok)

/-- 42_decode.md R170: in the states of the invariant a final byte of the signed variant below the boundary fills every bit
above its payload with its bit 6, and the value lies in `-2^(off+6) .. 2^(off+6)-1`. -/
def Obligations.SignExtensionBelowBoundary : Prop :=
  ∀ (s : State) (p : Payload), s.Inv → s.signed = true → s.block.dec.state = .recv →
    s.block.dec.off.toNat < maxShift s.width →
    let off := s.block.dec.off.toNat
    ∃ b : Block s.width, exec (.byteFinal p) s = .next (s.withBlock b) ∧ b.dec.state = .done ∧ b.dec.status = .ok ∧
      (∀ i < s.width, b.dec.acc.getLsbD i =
        if i < off then s.block.dec.acc.getLsbD i else if i < off + 7 then p.getLsbD (i - off) else p.getLsbD 6) ∧
      b.dec.acc.toInt = s.block.dec.acc.toNat + p.toInt * 2 ^ off ∧
      -2 ^ (off + 6) ≤ b.dec.acc.toInt ∧ b.dec.acc.toInt < 2 ^ (off + 6)

/-- 42_decode.md section 5: in `D_DONE` the unit takes no byte, whatever the source does; without the host taking the result
nothing changes. -/
def Obligations.NoByteIsTakenInDone : Prop :=
  ∀ (s : State) (p : Payload), s.block.dec.state = .done →
    exec (.byteCont p) s = .next s ∧ exec (.byteFinal p) s = .next s ∧
    s.outputs.decSrcReady = false ∧
    (s.block.ports.decResReady = false →
      (s.signed = false → exec .decU s = .next s) ∧ (s.signed = true → exec .decS s = .next s))

/-- 42_decode.md R179, step `DEC.RESULT`, for both variants: the value with `ST_OK`, no value otherwise; afterwards the unit
is in its reset state but for `d_status`, and exactly there when that is `ST_OK`.

What the statement says of bytes written, bytes taken and results
delivered speaks of the model's record of the channels (log 6). -/
def Obligations.DecResultIsDelivered : Prop :=
  ∀ s : State, s.block.ports.rst = false → s.block.ports.decResReady = true → s.block.dec.state = .done →
    let r : OpResult (BitVec s.width) := match s.block.dec.status with
      | .ok => .ok s.block.dec.acc
      | .ioError => .ioError
      | .invalidData => .invalidData
    let d : DecUnit s.width := { state := .recv, acc := 0#s.width, off := 0#8, status := s.block.dec.status }
    let t := s.withBlock { s.block with dec := d, decResults := s.block.decResults ++ [r] }
    (s.signed = false → exec .decU s = .next t) ∧ (s.signed = true → exec .decS s = .next t) ∧
    s.outputs.decResStatus = statusCode s.block.dec.status ∧
    (s.block.dec.status = .ok → s.outputs.decResValue = s.block.dec.acc ∧ d = DecUnit.reset s.width)

/-- 20_memory.md section 3: at an edge with no transfer on a channel of `DEC`, nothing of the machine changes, whatever the
other ports carry. -/
def Obligations.DecWithoutTransferKeepsAll : Prop :=
  ∀ s : State,
    s.block.ports.rst = true ∨
      ((s.block.dec.state = .recv → s.block.ports.decSrcValid = false) ∧
       (s.block.dec.state = .done → s.block.ports.decResReady = false)) →
    (s.signed = false → exec .decU s = .next s) ∧ (s.signed = true → exec .decS s = .next s)

/-- The frame of `DEC.U`, `DEC.S`, `BYTE.CONT` and `BYTE.FINAL` (10_state.md sections 1 and 2): only the registers of `DEC`,
the bytes taken and the results on `DEC.RES` can change, each of the two records by one entry at the end.

What the statement says of bytes written, bytes taken and results
delivered speaks of the model's record of the channels (log 6). -/
def Obligations.DecFrame : Prop :=
  ∀ (i : Instr) (s t : State), i ≠ .encU → i ≠ .encS → exec i s = .next t →
    ∃ (d : DecUnit s.width) (k : List Byte) (r : List (OpResult (BitVec s.width))),
      t = s.withBlock { s.block with dec := d, taken := k, decResults := r } ∧
      (k = s.block.taken ∨ (s.block.dec.state = .recv ∧ ∃ x, k = s.block.taken ++ [x])) ∧
      (r = s.block.decResults ∨
        (s.block.dec.state = .done ∧ s.block.ports.decResReady = true ∧ ∃ x, r = s.block.decResults ++ [x]))

/-- The model's own refusal of log 10 (00_scope.md section 4): an operation is refused by an instance of the other
signedness, and an instruction is refused for nothing else while the offset is at most `MAX_SHIFT`. -/
def Obligations.RefusedOnlyInTheOtherInstance : Prop :=
  ∀ (i : Instr) (s : State), s.block.dec.off.toNat ≤ maxShift s.width →
    (i.availableIn s.signed = true → ∃ t, exec i s = .next t) ∧
    (i.availableIn s.signed = false → exec i s = .refused (.otherInstance i.mnemonic))

/-! ### Both units -/

/-- 10_state.md R21: the units share no register and no port but `clk` and `rst`; a step of one reads and writes only its
own. Two blocks that agree on one unit's registers and ports agree on that unit after its step, whatever the rest is, and the
other unit's registers stay. -/
def Obligations.UnitsShareNothing : Prop :=
  ∀ (w : Nat) (signed : Bool) (b c : Block w), b.ports.rst = c.ports.rst →
    (b.enc = c.enc → b.ports.encInValid = c.ports.encInValid → b.ports.encInValue = c.ports.encInValue →
      b.ports.encSnkReady = c.ports.encSnkReady → b.ports.encSnkErr = c.ports.encSnkErr →
      b.ports.encResReady = c.ports.encResReady →
      ∃ b' c' : Block w,
        exec (if signed then .encS else .encU) ⟨w, signed, b⟩ = .next ⟨w, signed, b'⟩ ∧
        exec (if signed then .encS else .encU) ⟨w, signed, c⟩ = .next ⟨w, signed, c'⟩ ∧
        b'.enc = c'.enc ∧ b'.dec = b.dec ∧ c'.dec = c.dec) ∧
    (b.dec = c.dec → b.ports.decSrcValid = c.ports.decSrcValid → b.ports.decSrcByte = c.ports.decSrcByte →
      b.ports.decSrcErr = c.ports.decSrcErr → b.ports.decResReady = c.ports.decResReady →
      b.dec.off.toNat ≤ maxShift w →
      ∃ b' c' : Block w,
        exec (if signed then .decS else .decU) ⟨w, signed, b⟩ = .next ⟨w, signed, b'⟩ ∧
        exec (if signed then .decS else .decU) ⟨w, signed, c⟩ = .next ⟨w, signed, c'⟩ ∧
        b'.dec = c'.dec ∧ b'.enc = b.enc ∧ c'.enc = c.enc)

/-- 20_memory.md section 6 (an inference the spec marks as derived): the steps of the two units at one edge commute, also
where the decoder's is refused. -/
def Obligations.UnitStepsCommute : Prop :=
  ∀ s : State,
    andThen (exec s.encOperation s) (fun t => exec t.decOperation t) =
      andThen (exec s.decOperation s) (fun t => exec t.encOperation t)

/-- The step runs the decoded instructions: at an edge with `rst = 0` it samples the ports and runs the instance's operation
of `ENC` and then that of `DEC` (00_scope.md section 4, 20_memory.md section 3; the order is the model's, log 4). -/
def Obligations.StepRunsBothUnits : Prop :=
  ∀ s : State, (nextPorts s.block).rst = false →
    step s = andThen
      (exec (if s.signed then .encS else .encU)
        (s.withBlock { s.block with
          ports := nextPorts s.block, agenda := s.block.agenda.tail, draw := s.block.draw + 1 }))
      (fun t => exec (if s.signed then .decS else .decU) t)

/-- The step runs the byte the source delivers: when `DEC` is in `D_RECV`, the source delivers `x` and `ENC` has no
transfer at the edge, the step is the instruction of `x`'s class on the sampled machine (30_encoding.md section 1). -/
def Obligations.StepRunsTheDeliveredByte : Prop :=
  ∀ s : State,
    let p := nextPorts s.block
    p.rst = false → p.decSrcValid = true → p.decSrcErr = false → s.block.dec.state = .recv →
    (s.block.enc.state = .idle → p.encInValid = false) →
    (s.block.enc.state = .emit → p.encSnkReady = false) →
    (s.block.enc.state = .done → p.encResReady = false) →
    step s = exec (decodeWire p.decSrcByte) s.sampled

/-- The step runs what the host places (log 12): the instruction that the table's bits stand for, on the sampled machine. -/
def Obligations.StepRunsThePlacedWord : Prop :=
  ∀ (s : State) (nbits v : Nat) (i : Instr), decodeTableWord nbits v = some i →
    step (s.withFetchWord nbits v) = exec i (s.withFetchWord nbits v).sampled

/-- 70_reset_and_hazards.md R240, R242: at an edge with `rst = 1` every register of both units takes its reset value whatever
the state and the other inputs are; no transfer happens, no result is delivered, and bytes already moved stay moved.

What the statement says of bytes written, bytes taken and results
delivered speaks of the model's record of the channels (log 6). -/
def Obligations.ResetEdgeWins : Prop :=
  ∀ s : State, (nextPorts s.block).rst = true →
    ∃ b : Block s.width, step s = .next (s.withBlock b) ∧
      b.enc = ⟨.idle, 0#s.width, 0#5, .ok⟩ ∧ b.dec = ⟨.recv, 0#s.width, 0#8, .ok⟩ ∧
      b.sink = s.block.sink ∧ b.taken = s.block.taken ∧
      b.encResults = s.block.encResults ∧ b.decResults = s.block.decResults

/-- 10_state.md R33 and 70 R241: the reset values, and the outputs after reset, at every instance. -/
def Obligations.ResetStateIsAsTabulated : Prop :=
  ∀ (w : Nat) (signed : Bool),
    let b := (State.resetFor w signed).block
    b.enc.state = .idle ∧ b.enc.val = 0#w ∧ b.enc.cnt = 0#5 ∧ b.enc.status = .ok ∧
    b.dec.state = .recv ∧ b.dec.acc = 0#w ∧ b.dec.off = 0#8 ∧ b.dec.status = .ok ∧
    (outputs signed b).encInReady = true ∧ (outputs signed b).decSrcReady = true ∧
    (outputs signed b).encSnkValid = false ∧ (outputs signed b).encResValid = false ∧
    (outputs signed b).decResValid = false

/-- 10_state.md R34: the outputs of `ENC`, and exactly one of its three channels is enabled. -/
def Obligations.EncOutputs : Prop :=
  ∀ s : State,
    let o := s.outputs
    let e := s.block.enc
    let last := if s.signed then lastS (sar e.val 7) (low7 true e.val) else lastU (shr e.val 7)
    (o.encInReady = true ↔ e.state = .idle) ∧ (o.encSnkValid = true ↔ e.state = .emit) ∧
    (o.encResValid = true ↔ e.state = .done) ∧
    (e.state = .emit → o.encSnkByte.getLsbD 7 = !last ∧ o.encSnkByte.setWidth 7 = low7 s.signed e.val) ∧
    (e.state = .done → o.encResStatus = statusCode e.status) ∧
    (e.state = .done → e.status = .ok → o.encResCount = e.cnt) ∧
    [o.encInReady, o.encSnkValid, o.encResValid].count true = 1

/-- 10_state.md R35: the outputs of `DEC`, and exactly one of its two channels is enabled. -/
def Obligations.DecOutputs : Prop :=
  ∀ s : State,
    let o := s.outputs
    let d := s.block.dec
    (o.decSrcReady = true ↔ d.state = .recv) ∧ (o.decResValid = true ↔ d.state = .done) ∧
    (d.state = .done → o.decResStatus = statusCode d.status) ∧
    (d.state = .done → d.status = .ok → o.decResValue = d.acc) ∧
    o.decSrcReady = !o.decResValid

/-- 20_memory.md section 3 (an inference the spec marks as derived): a unit holds its registers, and so what it offers, over an
edge without a transfer of its own, whatever the other unit does at that edge; a result waits until it is taken. -/
def Obligations.UnitsHoldUntilTheirTransfer : Prop :=
  ∀ (s : State) (b : Block s.width),
    let p := nextPorts s.block
    step s = .next (s.withBlock b) → p.rst = false →
    ((s.block.enc.state = .idle → p.encInValid = false) → (s.block.enc.state = .emit → p.encSnkReady = false) →
      (s.block.enc.state = .done → p.encResReady = false) → b.enc = s.block.enc) ∧
    ((s.block.dec.state = .recv → p.decSrcValid = false) → (s.block.dec.state = .done → p.decResReady = false) →
      b.dec = s.block.dec)

/-- 20_memory.md section 5 and 70 section 1: what has moved stays moved. Every step only adds to the bytes written, the bytes
taken and the results given, at most one to each, and the parameters `W` and `SIGNED` stay.

What the statement says of bytes written, bytes taken and results
delivered speaks of the model's record of the channels (log 6). -/
def Obligations.StepOnlyAddsToTheRecords : Prop :=
  ∀ s t : State, step s = .next t →
    ∃ b : Block s.width, t = s.withBlock b ∧
      (∃ k, b.sink = s.block.sink ++ k ∧ k.length ≤ 1) ∧ (∃ k, b.taken = s.block.taken ++ k ∧ k.length ≤ 1) ∧
      (∃ r, b.encResults = s.block.encResults ++ r ∧ r.length ≤ 1) ∧
      (∃ r, b.decResults = s.block.decResults ++ r ∧ r.length ≤ 1)

/-! ### The invariant -/

/-- 10_state.md section 7 (the spec marks the list as derived): the invariant holds after reset, at every supported width. -/
def Obligations.InvariantHoldsAtReset : Prop :=
  ∀ (w : Nat) (signed : Bool), supportedWidth w = true → (State.resetFor w signed).Inv

/-- 10_state.md section 7 (the spec marks the list as derived): every step keeps the invariant. -/
def Obligations.StepKeepsTheInvariant : Prop :=
  ∀ s t : State, s.Inv → step s = .next t → t.Inv

/-- 70 section 4 and 93 U3 (the spec marks both as derived): in the states of the invariant every step answers a next state:
no edge is refused, and the left shift always has its value. -/
def Obligations.InvariantStepAnswersNext : Prop :=
  ∀ s : State, s.Inv → ∃ t, step s = .next t

/-- 10_state.md section 7, second item (the spec marks it as derived): while an encode is in `E_EMIT`, the bytes written
followed by `enc(e_val)` are `enc(v)` for the value accepted. Every edge without reset keeps that, or ends the operation with
all of `enc(v)` written and its length as the count, or with `IO_ERROR` and the bytes before the failing one written.

What the statement says of bytes written, bytes taken and results
delivered speaks of the model's record of the channels (log 6). -/
def Obligations.EncoderProgress : Prop :=
  ∀ (s : State) (v : BitVec s.width) (before written : List Byte), s.Inv → s.block.enc.state = .emit →
    s.block.sink = before ++ written → written ++ enc s.signed s.block.enc.val = enc s.signed v →
    s.block.enc.cnt.toNat = written.length → (nextPorts s.block).rst = false →
    ∃ b : Block s.width, step s = .next (s.withBlock b) ∧
      ((b.enc.state = .emit ∧ ∃ more, b.sink = before ++ more ∧ more ++ enc s.signed b.enc.val = enc s.signed v ∧
          b.enc.cnt.toNat = more.length) ∨
       (b.enc.state = .done ∧ b.enc.status = .ok ∧ b.sink = before ++ enc s.signed v ∧
          b.enc.cnt.toNat = (enc s.signed v).length) ∨
       (b.enc.state = .done ∧ b.enc.status = .ioError ∧ (nextPorts s.block).encSnkErr = true ∧
          b.enc.cnt = s.block.enc.cnt ∧ before ++ written <+: b.sink ∧ b.sink.length ≤ (before ++ written).length + 1))

/-- 60_exceptions.md section 1: `INVALID_DATA` is raised only by decode and only at the boundary byte. A step that ends a
decode with it had the unit in `D_RECV` at the boundary offset and a byte delivered.

What the statement says of bytes written, bytes taken and results
delivered speaks of the model's record of the channels (log 6). -/
def Obligations.InvalidDataOnlyAtTheBoundary : Prop :=
  ∀ (s : State) (b : Block s.width), step s = .next (s.withBlock b) →
    s.block.dec.state = .recv → b.dec.state = .done → b.dec.status = .invalidData →
    s.block.dec.off.toNat = maxShift s.width ∧
    (nextPorts s.block).decSrcValid = true ∧ (nextPorts s.block).decSrcErr = false ∧
    b.taken = s.block.taken ++ [(nextPorts s.block).decSrcByte]

/-- 70_reset_and_hazards.md section 1 (the spec marks it as derived): what an operation does depends on no operation before
it. Two machines of one instance in which no operation is in flight, given the same edges, write, take and deliver the same
from then on, whatever their dead registers and their past are.

What the statement says of bytes written, bytes taken and results
delivered speaks of the model's record of the channels (log 6). -/
def Obligations.QuiescentMachinesBehaveAlike : Prop :=
  ∀ (w : Nat) (signed : Bool) (b c : Block w), State.Inv ⟨w, signed, b⟩ → State.Inv ⟨w, signed, c⟩ →
    State.Quiescent ⟨w, signed, b⟩ → State.Quiescent ⟨w, signed, c⟩ → b.agenda = c.agenda →
    ∀ n, ∃ b' c' : Block w,
      run n ⟨w, signed, b⟩ = .next ⟨w, signed, b'⟩ ∧ run n ⟨w, signed, c⟩ = .next ⟨w, signed, c'⟩ ∧
      ∃ k x r v, b'.sink = b.sink ++ k ∧ c'.sink = c.sink ++ k ∧ b'.taken = b.taken ++ x ∧ c'.taken = c.taken ++ x ∧
        b'.encResults = b.encResults ++ r ∧ c'.encResults = c.encResults ++ r ∧
        b'.decResults = b.decResults ++ v ∧ c'.decResults = c.decResults ++ v

/-! ### The operations -/

/-- 41_encode.md R135: one whole encode delivers `OK(count)` with `count = length(enc(x))` between 1 and `N_ENC_MAX`, having
written exactly `enc(x)`, for any waiting of the sink and of the host and anything the decoder is doing meanwhile.

What the statement says of bytes written, bytes taken and results
delivered speaks of the model's record of the channels (log 6). -/
def Obligations.EncodeDeliversCountAndBytes : Prop :=
  ∀ (s : State) (p0 p1 : PortIn s.width) (mid : List (PortIn s.width)), s.Inv → s.block.enc.state = .idle →
    s.block.agenda = p0 :: (mid ++ [p1]) →
    p0.rst = false → p0.encInValid = true →
    (∀ p ∈ mid, p.rst = false ∧ p.encSnkErr = false ∧ p.encResReady = false) →
    (enc s.signed p0.encInValue).length ≤ sinkReadyEdges mid →
    p1.rst = false → p1.encResReady = true →
    ∃ b : Block s.width, run (mid.length + 2) s = .next (s.withBlock b) ∧ b.enc.state = .idle ∧
      b.sink = s.block.sink ++ enc s.signed p0.encInValue ∧
      ∃ count : BitVec 5, b.encResults = s.block.encResults ++ [.ok count] ∧
        count.toNat = (enc s.signed p0.encInValue).length ∧ 1 ≤ count.toNat ∧ count.toNat ≤ nEncMax s.width

/-- 41_encode.md R136: the first write that fails ends the encode with `IO_ERROR`: the bytes before it are written, its own
byte is kept or not as the sink chooses (93 U5, log 7), and none after it is offered.

What the statement says of bytes written, bytes taken and results
delivered speaks of the model's record of the channels (log 6). -/
def Obligations.EncodeStopsAtTheFailedWrite : Prop :=
  ∀ (s : State) (p0 pf : PortIn s.width) (mid rest : List (PortIn s.width)), s.Inv → s.block.enc.state = .idle →
    s.block.agenda = p0 :: (mid ++ pf :: rest) →
    p0.rst = false → p0.encInValid = true →
    (∀ p ∈ mid, p.rst = false ∧ p.encSnkErr = false ∧ p.encResReady = false) →
    sinkReadyEdges mid < (enc s.signed p0.encInValue).length →
    pf.rst = false → pf.encSnkReady = true → pf.encSnkErr = true →
    (∀ p ∈ rest, p.rst = false ∧ p.encResReady = false) →
    let k := sinkReadyEdges mid
    let bytes := enc s.signed p0.encInValue
    ∃ b : Block s.width, run (mid.length + rest.length + 2) s = .next (s.withBlock b) ∧
      b.enc.state = .done ∧ b.enc.status = .ioError ∧ b.encResults = s.block.encResults ∧
      b.sink = s.block.sink ++ bytes.take (if pf.snkKeeps then k + 1 else k)

/-- 42_decode.md section 5 (the spec marks the refinement as derived): from a fresh decoder, any edges without reset and
without the result being taken leave the unit as `dec` of the source's answers says, however the source waits and whatever the
encoder does meanwhile.

What the statement says of bytes written, bytes taken and results
delivered speaks of the model's record of the channels (log 6). -/
def Obligations.DecodeRunComputesDec : Prop :=
  ∀ s : State, s.Inv → DecFresh s.block →
    (∀ p ∈ s.block.agenda, p.rst = false ∧ p.decResReady = false) →
    ∃ b : Block s.width, run s.block.agenda.length s = .next (s.withBlock b) ∧
      match dec s.width s.signed (sourceAnswers s.block.agenda) with
      | .finished r n => b.dec.state = .done ∧ b.dec.status = statusOf r ∧ resultOf b.dec.status b.dec.acc = r ∧
          b.taken.length = s.block.taken.length + n
      | .waiting acc off n => b.dec.state = .recv ∧ b.dec.acc = acc ∧ b.dec.off.toNat = off ∧
          b.taken.length = s.block.taken.length + n
      | .noShift => False

/-- 41_encode.md and 30_encoding.md (the spec marks the bound as derived): what `enc` writes is a wire form of 1 to
`N_ENC_MAX` bytes that denotes its value. -/
def Obligations.EncodeDenotesItsValue : Prop :=
  ∀ (w : Nat), 1 ≤ w → ∀ (signed : Bool) (x : BitVec w),
    isWireForm (enc signed x) = true ∧ reading signed (enc signed x) = valueOf signed x ∧
    1 ≤ (enc signed x).length ∧ (enc signed x).length ≤ nEncMax w

/-- 30_encoding.md R89: there is exactly one shortest sequence for a value and the encoder emits it; its length is the least
`n ≥ 1` for which the value fits `7n` bits. -/
def Obligations.EncodeIsCanonical : Prop :=
  ∀ (w : Nat), 1 ≤ w → ∀ (signed : Bool) (x : BitVec w),
    (∀ bs, isWireForm bs = true → reading signed bs = valueOf signed x →
      (enc signed x).length ≤ bs.length ∧ (bs.length = (enc signed x).length → bs = enc signed x)) ∧
    (∀ n, 1 ≤ n → ((enc signed x).length ≤ n ↔ Representable (7 * n) signed (valueOf signed x)))

/-- 42_decode.md section 4 (the spec marks it as derived): what a decode returns, in numbers. On a wire form of `n` bytes
the result is the integer it denotes when `n ≤ N_DEC_MAX` and that fits, after exactly `n` bytes; otherwise `INVALID_DATA`
after exactly `N_DEC_MAX` bytes, and likewise when none of the first `N_DEC_MAX` bytes is final. -/
def Obligations.DecodeIsNumericallyExact : Prop :=
  ∀ (w : Nat), 1 ≤ w → ∀ (signed : Bool) (bs : List Byte) (rest : List SrcAnswer),
    (isWireForm bs = true →
      if bs.length ≤ nDecMax w ∧ Representable w signed (reading signed bs)
      then ∃ v : BitVec w, valueOf signed v = reading signed bs ∧
        dec w signed (answers bs ++ rest) = .finished (.ok v) bs.length
      else dec w signed (answers bs ++ rest) = .finished .invalidData (nDecMax w)) ∧
    ((∀ x ∈ bs, contFlag x = true) → bs.length = nDecMax w →
      dec w signed (answers bs ++ rest) = .finished .invalidData (nDecMax w)) ∧
    (isWireForm bs = true → bs.length < nDecMax w → Representable w signed (reading signed bs))

/-- 42_decode.md section 3: a read that fails while the decode is waiting for a byte, the first included, gives `IO_ERROR`,
and the bytes before it are all that was taken. -/
def Obligations.DecodeFailsWithItsSource : Prop :=
  ∀ (w : Nat) (signed : Bool) (bs : List Byte) (rest : List SrcAnswer),
    (∀ x ∈ bs, contFlag x = true) → bs.length < nDecMax w →
    dec w signed (answers bs ++ .fail :: rest) = .finished .ioError bs.length

/-- 42_decode.md R176, the round-trip law, for every admitted width and both signednesses: a decoder given what the encoder
wrote returns the value after exactly those bytes, whatever follows on the source. -/
def Obligations.RoundTripLaw : Prop :=
  ∀ (w : Nat), admittedWidth w = true → ∀ (signed : Bool) (x : BitVec w) (rest : List SrcAnswer),
    dec w signed (answers (enc signed x) ++ rest) = .finished (.ok x) (enc signed x).length

/-- 42_decode.md R177, the overflow-rejection law, for every pair of admitted widths: what one width encodes, another decodes
to the same number when that fits, and rejects otherwise; never a different value. -/
def Obligations.OverflowRejectionLaw : Prop :=
  ∀ (w1 w2 : Nat), admittedWidth w1 = true → admittedWidth w2 = true → ∀ (signed : Bool) (x : BitVec w1),
    (Representable w2 signed (valueOf signed x) →
      ∃ y : BitVec w2, valueOf signed y = valueOf signed x ∧
        dec w2 signed (answers (enc signed x)) = .finished (.ok y) (enc signed x).length) ∧
    (¬Representable w2 signed (valueOf signed x) →
      ∃ n, dec w2 signed (answers (enc signed x)) = .finished .invalidData n)
end

