-- ==== Sys2Proof/Laws/State.lean ====
section
/-!
SUPPORT. One lemma per field per update of the state, so that no later proof unfolds a record update.
-/

namespace Sys2Proof.Machine

variable {w : Nat}

/-! ### The machine -/

@[simp] theorem State.withBlock_width (s : State) (b : Block s.width) : (s.withBlock b).width = s.width := rfl
@[simp] theorem State.withBlock_signed (s : State) (b : Block s.width) : (s.withBlock b).signed = s.signed := rfl
@[simp] theorem State.withBlock_block (s : State) (b : Block s.width) : (s.withBlock b).block = b := rfl
@[simp] theorem State.withBlock_withBlock (s : State) (b c : Block s.width) :
    State.withBlock (s.withBlock b) c = s.withBlock c := rfl
@[simp] theorem State.withBlock_self (s : State) : s.withBlock s.block = s := rfl
@[simp] theorem State.resetFor_width (w : Nat) (signed : Bool) : (State.resetFor w signed).width = w := rfl
@[simp] theorem State.resetFor_signed (w : Nat) (signed : Bool) : (State.resetFor w signed).signed = signed := rfl
@[simp] theorem State.resetFor_block (w : Nat) (signed : Bool) : (State.resetFor w signed).block = Block.reset w := rfl
@[simp] theorem State.sampled_width (s : State) : s.sampled.width = s.width := rfl
@[simp] theorem State.sampled_signed (s : State) : s.sampled.signed = s.signed := rfl
@[simp] theorem State.sampled_block (s : State) : s.sampled.block = samplePorts s.block := rfl

/-! ### The next ports -/

@[simp] theorem nextPorts_of_nil (b : Block w) (h : b.agenda = []) : nextPorts b = PortIn.silent w := by
  simp [nextPorts, h]
@[simp] theorem nextPorts_of_cons (b : Block w) (p : PortIn w) (l : List (PortIn w)) (h : b.agenda = p :: l) :
    nextPorts b = p := by
  simp [nextPorts, h]
@[simp] theorem nextPorts_placeEdge (b : Block w) (p : PortIn w) : nextPorts (placeEdge p b) = p := rfl

/-! ### `takeByte` -/

@[simp] theorem takeByte_enc (x : Byte) (b : Block w) :
    (takeByte x b).enc = b.enc := rfl
@[simp] theorem takeByte_dec (x : Byte) (b : Block w) :
    (takeByte x b).dec = b.dec := rfl
@[simp] theorem takeByte_ports (x : Byte) (b : Block w) :
    (takeByte x b).ports = b.ports := rfl
@[simp] theorem takeByte_agenda (x : Byte) (b : Block w) :
    (takeByte x b).agenda = b.agenda := rfl
@[simp] theorem takeByte_sink (x : Byte) (b : Block w) :
    (takeByte x b).sink = b.sink := rfl
@[simp] theorem takeByte_taken (x : Byte) (b : Block w) :
    (takeByte x b).taken = b.taken ++ [x] := rfl
@[simp] theorem takeByte_encResults (x : Byte) (b : Block w) :
    (takeByte x b).encResults = b.encResults := rfl
@[simp] theorem takeByte_decResults (x : Byte) (b : Block w) :
    (takeByte x b).decResults = b.decResults := rfl
@[simp] theorem takeByte_draw (x : Byte) (b : Block w) :
    (takeByte x b).draw = b.draw := rfl

/-! ### `raiseError_enc` -/

@[simp] theorem raiseError_enc_enc (e : ErrorClass) (b : Block w) :
    (raiseError .enc e b).enc = { b.enc with status := errorStatus e, state := .done } := rfl
@[simp] theorem raiseError_enc_dec (e : ErrorClass) (b : Block w) :
    (raiseError .enc e b).dec = b.dec := rfl
@[simp] theorem raiseError_enc_ports (e : ErrorClass) (b : Block w) :
    (raiseError .enc e b).ports = b.ports := rfl
@[simp] theorem raiseError_enc_agenda (e : ErrorClass) (b : Block w) :
    (raiseError .enc e b).agenda = b.agenda := rfl
@[simp] theorem raiseError_enc_sink (e : ErrorClass) (b : Block w) :
    (raiseError .enc e b).sink = b.sink := rfl
@[simp] theorem raiseError_enc_taken (e : ErrorClass) (b : Block w) :
    (raiseError .enc e b).taken = b.taken := rfl
@[simp] theorem raiseError_enc_encResults (e : ErrorClass) (b : Block w) :
    (raiseError .enc e b).encResults = b.encResults := rfl
@[simp] theorem raiseError_enc_decResults (e : ErrorClass) (b : Block w) :
    (raiseError .enc e b).decResults = b.decResults := rfl
@[simp] theorem raiseError_enc_draw (e : ErrorClass) (b : Block w) :
    (raiseError .enc e b).draw = b.draw := rfl

/-! ### `raiseError_dec` -/

@[simp] theorem raiseError_dec_enc (e : ErrorClass) (b : Block w) :
    (raiseError .dec e b).enc = b.enc := rfl
@[simp] theorem raiseError_dec_dec (e : ErrorClass) (b : Block w) :
    (raiseError .dec e b).dec = { b.dec with status := errorStatus e, state := .done } := rfl
@[simp] theorem raiseError_dec_ports (e : ErrorClass) (b : Block w) :
    (raiseError .dec e b).ports = b.ports := rfl
@[simp] theorem raiseError_dec_agenda (e : ErrorClass) (b : Block w) :
    (raiseError .dec e b).agenda = b.agenda := rfl
@[simp] theorem raiseError_dec_sink (e : ErrorClass) (b : Block w) :
    (raiseError .dec e b).sink = b.sink := rfl
@[simp] theorem raiseError_dec_taken (e : ErrorClass) (b : Block w) :
    (raiseError .dec e b).taken = b.taken := rfl
@[simp] theorem raiseError_dec_encResults (e : ErrorClass) (b : Block w) :
    (raiseError .dec e b).encResults = b.encResults := rfl
@[simp] theorem raiseError_dec_decResults (e : ErrorClass) (b : Block w) :
    (raiseError .dec e b).decResults = b.decResults := rfl
@[simp] theorem raiseError_dec_draw (e : ErrorClass) (b : Block w) :
    (raiseError .dec e b).draw = b.draw := rfl

/-! ### `giveResult_enc` -/

@[simp] theorem giveResult_enc_enc (b : Block w) :
    (giveResult .enc b).enc = { b.enc with state := .idle } := rfl
@[simp] theorem giveResult_enc_dec (b : Block w) :
    (giveResult .enc b).dec = b.dec := rfl
@[simp] theorem giveResult_enc_ports (b : Block w) :
    (giveResult .enc b).ports = b.ports := rfl
@[simp] theorem giveResult_enc_agenda (b : Block w) :
    (giveResult .enc b).agenda = b.agenda := rfl
@[simp] theorem giveResult_enc_sink (b : Block w) :
    (giveResult .enc b).sink = b.sink := rfl
@[simp] theorem giveResult_enc_taken (b : Block w) :
    (giveResult .enc b).taken = b.taken := rfl
@[simp] theorem giveResult_enc_encResults (b : Block w) :
    (giveResult .enc b).encResults = b.encResults ++ [resultOf b.enc.status b.enc.cnt] := rfl
@[simp] theorem giveResult_enc_decResults (b : Block w) :
    (giveResult .enc b).decResults = b.decResults := rfl
@[simp] theorem giveResult_enc_draw (b : Block w) :
    (giveResult .enc b).draw = b.draw := rfl

/-! ### `giveResult_dec` -/

@[simp] theorem giveResult_dec_enc (b : Block w) :
    (giveResult .dec b).enc = b.enc := rfl
@[simp] theorem giveResult_dec_dec (b : Block w) :
    (giveResult .dec b).dec = { b.dec with acc := 0#w, off := 0#8, state := .recv } := rfl
@[simp] theorem giveResult_dec_ports (b : Block w) :
    (giveResult .dec b).ports = b.ports := rfl
@[simp] theorem giveResult_dec_agenda (b : Block w) :
    (giveResult .dec b).agenda = b.agenda := rfl
@[simp] theorem giveResult_dec_sink (b : Block w) :
    (giveResult .dec b).sink = b.sink := rfl
@[simp] theorem giveResult_dec_taken (b : Block w) :
    (giveResult .dec b).taken = b.taken := rfl
@[simp] theorem giveResult_dec_encResults (b : Block w) :
    (giveResult .dec b).encResults = b.encResults := rfl
@[simp] theorem giveResult_dec_decResults (b : Block w) :
    (giveResult .dec b).decResults = b.decResults ++ [resultOf b.dec.status b.dec.acc] := rfl
@[simp] theorem giveResult_dec_draw (b : Block w) :
    (giveResult .dec b).draw = b.draw := rfl

/-! ### `resetRegisters` -/

@[simp] theorem resetRegisters_enc (b : Block w) :
    (resetRegisters b).enc = EncUnit.reset w := rfl
@[simp] theorem resetRegisters_dec (b : Block w) :
    (resetRegisters b).dec = DecUnit.reset w := rfl
@[simp] theorem resetRegisters_ports (b : Block w) :
    (resetRegisters b).ports = b.ports := rfl
@[simp] theorem resetRegisters_agenda (b : Block w) :
    (resetRegisters b).agenda = b.agenda := rfl
@[simp] theorem resetRegisters_sink (b : Block w) :
    (resetRegisters b).sink = b.sink := rfl
@[simp] theorem resetRegisters_taken (b : Block w) :
    (resetRegisters b).taken = b.taken := rfl
@[simp] theorem resetRegisters_encResults (b : Block w) :
    (resetRegisters b).encResults = b.encResults := rfl
@[simp] theorem resetRegisters_decResults (b : Block w) :
    (resetRegisters b).decResults = b.decResults := rfl
@[simp] theorem resetRegisters_draw (b : Block w) :
    (resetRegisters b).draw = b.draw := rfl

/-! ### `samplePorts` -/

@[simp] theorem samplePorts_enc (b : Block w) :
    (samplePorts b).enc = b.enc := rfl
@[simp] theorem samplePorts_dec (b : Block w) :
    (samplePorts b).dec = b.dec := rfl
@[simp] theorem samplePorts_ports (b : Block w) :
    (samplePorts b).ports = nextPorts b := rfl
@[simp] theorem samplePorts_agenda (b : Block w) :
    (samplePorts b).agenda = b.agenda.tail := rfl
@[simp] theorem samplePorts_sink (b : Block w) :
    (samplePorts b).sink = b.sink := rfl
@[simp] theorem samplePorts_taken (b : Block w) :
    (samplePorts b).taken = b.taken := rfl
@[simp] theorem samplePorts_encResults (b : Block w) :
    (samplePorts b).encResults = b.encResults := rfl
@[simp] theorem samplePorts_decResults (b : Block w) :
    (samplePorts b).decResults = b.decResults := rfl
@[simp] theorem samplePorts_draw (b : Block w) :
    (samplePorts b).draw = b.draw + 1 := rfl

/-! ### `encAccept` -/

@[simp] theorem encAccept_enc (v : BitVec w) (b : Block w) :
    (encAccept v b).enc = { b.enc with val := v, cnt := 0#5, state := .emit } := rfl
@[simp] theorem encAccept_dec (v : BitVec w) (b : Block w) :
    (encAccept v b).dec = b.dec := rfl
@[simp] theorem encAccept_ports (v : BitVec w) (b : Block w) :
    (encAccept v b).ports = b.ports := rfl
@[simp] theorem encAccept_agenda (v : BitVec w) (b : Block w) :
    (encAccept v b).agenda = b.agenda := rfl
@[simp] theorem encAccept_sink (v : BitVec w) (b : Block w) :
    (encAccept v b).sink = b.sink := rfl
@[simp] theorem encAccept_taken (v : BitVec w) (b : Block w) :
    (encAccept v b).taken = b.taken := rfl
@[simp] theorem encAccept_encResults (v : BitVec w) (b : Block w) :
    (encAccept v b).encResults = b.encResults := rfl
@[simp] theorem encAccept_decResults (v : BitVec w) (b : Block w) :
    (encAccept v b).decResults = b.decResults := rfl
@[simp] theorem encAccept_draw (v : BitVec w) (b : Block w) :
    (encAccept v b).draw = b.draw := rfl

/-! ### `placeEdge` -/

@[simp] theorem placeEdge_enc (p : PortIn w) (b : Block w) :
    (placeEdge p b).enc = b.enc := rfl
@[simp] theorem placeEdge_dec (p : PortIn w) (b : Block w) :
    (placeEdge p b).dec = b.dec := rfl
@[simp] theorem placeEdge_ports (p : PortIn w) (b : Block w) :
    (placeEdge p b).ports = b.ports := rfl
@[simp] theorem placeEdge_agenda (p : PortIn w) (b : Block w) :
    (placeEdge p b).agenda = p :: b.agenda := rfl
@[simp] theorem placeEdge_sink (p : PortIn w) (b : Block w) :
    (placeEdge p b).sink = b.sink := rfl
@[simp] theorem placeEdge_taken (p : PortIn w) (b : Block w) :
    (placeEdge p b).taken = b.taken := rfl
@[simp] theorem placeEdge_encResults (p : PortIn w) (b : Block w) :
    (placeEdge p b).encResults = b.encResults := rfl
@[simp] theorem placeEdge_decResults (p : PortIn w) (b : Block w) :
    (placeEdge p b).decResults = b.decResults := rfl
@[simp] theorem placeEdge_draw (p : PortIn w) (b : Block w) :
    (placeEdge p b).draw = b.draw := rfl

/-! ### `snkHand` -/

@[simp] theorem snkHand_enc (x : Byte) (b : Block w) : (snkHand x b).enc = b.enc := by
  unfold snkHand; split <;> [rfl; (split <;> rfl)]
@[simp] theorem snkHand_dec (x : Byte) (b : Block w) : (snkHand x b).dec = b.dec := by
  unfold snkHand; split <;> [rfl; (split <;> rfl)]
@[simp] theorem snkHand_ports (x : Byte) (b : Block w) : (snkHand x b).ports = b.ports := by
  unfold snkHand; split <;> [rfl; (split <;> rfl)]
@[simp] theorem snkHand_agenda (x : Byte) (b : Block w) : (snkHand x b).agenda = b.agenda := by
  unfold snkHand; split <;> [rfl; (split <;> rfl)]
@[simp] theorem snkHand_taken (x : Byte) (b : Block w) : (snkHand x b).taken = b.taken := by
  unfold snkHand; split <;> [rfl; (split <;> rfl)]
@[simp] theorem snkHand_encResults (x : Byte) (b : Block w) : (snkHand x b).encResults = b.encResults := by
  unfold snkHand; split <;> [rfl; (split <;> rfl)]
@[simp] theorem snkHand_decResults (x : Byte) (b : Block w) : (snkHand x b).decResults = b.decResults := by
  unfold snkHand; split <;> [rfl; (split <;> rfl)]
@[simp] theorem snkHand_draw (x : Byte) (b : Block w) : (snkHand x b).draw = b.draw := by
  unfold snkHand; split <;> [rfl; (split <;> rfl)]

end Sys2Proof.Machine
end

