-- ==== Sys2Proof/Laws/Ops.lean ====
section
/-!
SUPPORT. One lemma per shared operation: everything it can do, said once. A proof cites these and does not unfold the
operation again.
-/

namespace Sys2Proof.Machine

variable {w : Nat}

/-! ### Outcomes -/

@[simp] theorem andThen_next {σ τ : Type} (s : σ) (f : σ → Host.Outcome τ Fault Refusal) :
    andThen (.next s) f = f s := rfl

@[simp] theorem andThen_refused {σ τ : Type} (r : Refusal) (f : σ → Host.Outcome τ Fault Refusal) :
    andThen (.refused r) f = .refused r := rfl

/-- A chain answers a next state exactly when both of its parts do. -/
theorem andThen_eq_next {σ τ : Type} {o : Host.Outcome σ Fault Refusal} {f : σ → Host.Outcome τ Fault Refusal} {t : τ} :
    andThen o f = .next t ↔ ∃ s, o = .next s ∧ f s = .next t := by
  cases o <;> simp [andThen]

@[simp] theorem State.lift_next (s : State) (b : Block s.width) : s.lift (.next b) = .next (s.withBlock b) := rfl

@[simp] theorem State.lift_refused (s : State) (r : Refusal) : s.lift (.refused r) = .refused r := rfl

/-- A lifted outcome is a next state exactly when the block's is, and only the block differs. -/
theorem State.lift_eq_next {s t : State} {o : Host.Outcome (Block s.width) Fault Refusal} :
    s.lift o = .next t ↔ ∃ b, o = .next b ∧ s.withBlock b = t := by
  simp [State.lift, andThen_eq_next]

theorem State.inInstance_of_eq {s : State} {want : Bool} (h : s.signed = want) (m : String)
    (f : Block s.width → Host.Outcome (Block s.width) Fault Refusal) : s.inInstance want m f = s.lift (f s.block) :=
  if_pos h

theorem State.inInstance_of_ne {s : State} {want : Bool} (h : s.signed ≠ want) (m : String)
    (f : Block s.width → Host.Outcome (Block s.width) Fault Refusal) :
    s.inInstance want m f = .refused (.otherInstance m) :=
  if_neg h

/-- An operation of one signedness answers a next state only in that instance, and then as the block does. -/
theorem State.inInstance_eq_next {s t : State} {want : Bool} {m : String}
    {f : Block s.width → Host.Outcome (Block s.width) Fault Refusal} :
    s.inInstance want m f = .next t ↔ s.signed = want ∧ ∃ b, f s.block = .next b ∧ s.withBlock b = t := by
  unfold State.inInstance
  split <;> simp_all [State.lift_eq_next]

/-! ### Constants and shifts -/

theorem maxShift_le (w : Nat) : maxShift w ≤ w := Nat.div_mul_le_self w 7

theorem maxShift_add_boundaryBits (w : Nat) : maxShift w + boundaryBits w = w := by
  have := maxShift_le w; unfold boundaryBits; omega

theorem boundaryBits_le (w : Nat) : boundaryBits w ≤ 6 := by
  unfold boundaryBits maxShift; omega

theorem maxShift_mod (w : Nat) : maxShift w % 7 = 0 := Nat.mul_mod_left _ _

/-- An offset below the boundary leaves room for a whole payload (42_decode.md R169). -/
theorem add_seven_le_maxShift {w off : Nat} (h7 : off % 7 = 0) (h : off < maxShift w) : off + 7 ≤ maxShift w := by
  have := maxShift_mod w; omega

theorem shl_of_lt {a : BitVec w} {n : Nat} (h : n < w) : shl a n = some (a <<< n) := if_pos h

theorem shl_of_le {a : BitVec w} {n : Nat} (h : w ≤ n) : shl a n = none := if_neg (by omega)

theorem mergeAt_of_lt {acc a : BitVec w} {n : Nat} (h : n < w) : mergeAt acc a n = some (acc ||| a <<< n) := by
  simp [mergeAt, shl_of_lt h]

theorem mergeAt_of_le {acc a : BitVec w} {n : Nat} (h : w ≤ n) : mergeAt acc a n = none := by
  simp [mergeAt, shl_of_le h]

/-! ### One byte -/

theorem atBoundary_iff {off : Nat} : atBoundary w off = true ↔ off = maxShift w := by simp [atBoundary]

/-- Below the boundary a continuation byte is accumulated. -/
theorem absorbCont_below {p : Payload} {acc : BitVec w} {off : Nat} (h : off < maxShift w) :
    absorbCont p acc off = .more (acc ||| zextPayload w p <<< off) := by
  have hw := maxShift_le w
  have hb : atBoundary w off = false := by simp [atBoundary]; omega
  simp [absorbCont, hb, mergeAt_of_lt (show off < w by omega)]

/-- At the boundary a continuation byte is rejected. -/
theorem absorbCont_boundary {p : Payload} {acc : BitVec w} : absorbCont p acc (maxShift w) = .invalid := by
  simp [absorbCont, atBoundary]

/-- Below the boundary a final byte ends the operation with a value. -/
theorem absorbFinal_below {signed : Bool} {p : Payload} {acc : BitVec w} {off : Nat} (h : off < maxShift w) :
    absorbFinal signed p acc off =
      .value (if needsSignFill w signed p off
        then acc ||| zextPayload w p <<< off ||| BitVec.allOnes w <<< (off + 7)
        else acc ||| zextPayload w p <<< off) := by
  have hw := maxShift_le w
  have hb : atBoundary w off = false := by simp [atBoundary]; omega
  simp only [absorbFinal, hb, absorbEnd, mergeAt_of_lt (show off < w by omega)]
  by_cases hf : needsSignFill w signed p off = true
  · have hlt : off + 7 < w := by
      simp only [needsSignFill, Bool.and_eq_true, decide_eq_true_eq] at hf
      exact hf.2
    simp [hf, mergeAt_of_lt hlt, valueOrNoShift]
  · simp [hf]

/-- At the boundary a final byte is either legal and ends the operation with a value, or rejected. -/
theorem absorbFinal_boundary {signed : Bool} {p : Payload} {acc : BitVec w} :
    absorbFinal signed p acc (maxShift w) =
      if legalLast signed p acc then
        .value (if 1 ≤ boundaryBits w then acc ||| zextBoundary w p <<< maxShift w else acc)
      else .invalid := by
  have hb : atBoundary w (maxShift w) = true := by simp [atBoundary]
  have hk := maxShift_add_boundaryBits w
  simp only [absorbFinal, hb, absorbBoundary, if_true]
  by_cases h1 : 1 ≤ boundaryBits w
  · simp [h1, mergeAt_of_lt (show maxShift w < w by omega), valueOrNoShift]
  · simp [h1]

/-- What a byte does to the registers: everything but a missing shift value is a next state. -/
theorem applyAbsorbed_eq_next {a : Absorbed w} {b c : Block w} :
    applyAbsorbed a b = .next c ↔
      (∃ acc, a = .more acc ∧ c = { b with dec := { b.dec with acc := acc, off := b.dec.off + 7#8 } }) ∨
      (∃ acc, a = .value acc ∧ c = { b with dec := { b.dec with acc := acc, status := .ok, state := .done } }) ∨
      (a = .invalid ∧ c = raiseError .dec .invalidData b) := by
  cases a <;> simp [applyAbsorbed, eq_comm]

/-- A byte offered to the decoder: taken in `D_RECV`, left alone in `D_DONE`. -/
theorem readByte_eq_next {x : Byte} {a : Absorbed w} {b c : Block w} :
    readByte x a b = .next c ↔
      (b.dec.state = .recv ∧ applyAbsorbed a (takeByte x b) = .next c) ∨ (b.dec.state = .done ∧ c = b) := by
  unfold readByte
  cases b.dec.state <;> simp [eq_comm]

/-- The two classes cover every byte, and each is read as its own instruction. -/
theorem decodeWire_of_contFlag {x : Byte} (h : contFlag x = true) : decodeWire x = .byteCont (payload x) := by
  simp [decodeWire, h]

theorem decodeWire_of_not_contFlag {x : Byte} (h : contFlag x = false) : decodeWire x = .byteFinal (payload x) := by
  simp [decodeWire, h]

@[simp] theorem contFlag_wireByte (c : Bool) (p : Payload) : contFlag (wireByte c p) = c := by
  revert c p; decide

@[simp] theorem payload_wireByte (c : Bool) (p : Payload) : payload (wireByte c p) = p := by
  revert c p; decide

theorem wireByte_contFlag_payload (x : Byte) : wireByte (contFlag x) (payload x) = x := by
  revert x; decide

/-! ### The encoder's write -/

/-- The sink after it has been handed a byte. -/
theorem snkHand_sink (x : Byte) (b : Block w) :
    (snkHand x b).sink =
      if b.ports.encSnkErr = false ∨ b.ports.snkKeeps = true then b.sink ++ [x] else b.sink := by
  cases he : b.ports.encSnkErr <;> cases hk : b.ports.snkKeeps <;> simp [snkHand, snkAnswer, he, hk]

/-- The registers after a byte the sink has taken: done after the last byte, otherwise the rest of the value. -/
theorem encAdvance_cases (signed : Bool) (e : EncUnit w) :
    (isLast signed e.val = true ∧ encAdvance signed e = { e with cnt := e.cnt + 1#5, status := .ok, state := .done }) ∨
    (isLast signed e.val = false ∧
      encAdvance signed e = { e with cnt := e.cnt + 1#5, val := rsh signed e.val 7 }) := by
  cases h : isLast signed e.val <;> simp [encAdvance, h]

/-- The low 7 bits of a value, taken directly. -/
theorem low7_eq (signed : Bool) (x : BitVec w) :
    low7 signed x = if signed then x.signExtend 7 else x.setWidth 7 := by
  unfold low7 trunc8
  cases signed
  · ext i hi; simp
  · ext i hi
    simp only [if_true, BitVec.getElem_setWidth, BitVec.getLsbD_signExtend, BitVec.getElem_signExtend]
    rw [decide_eq_true (by omega : i < 8)]
    by_cases h : i < w <;> simp [h, BitVec.getLsbD_eq_getElem]

/-! ### The units at an edge -/

/-- What unit `ENC` can do at an edge: accept, write, give its result, or nothing. -/
theorem encEdge_cases (signed : Bool) (b : Block w) :
    (encInTransfer b = true ∧ encEdge signed b = encAccept b.ports.encInValue b) ∨
    (encSnkTransfer b = true ∧ encEdge signed b = encWrite signed b) ∨
    (encResTransfer b = true ∧ encEdge signed b = giveResult .enc b) ∨
    (encInTransfer b = false ∧ encSnkTransfer b = false ∧ encResTransfer b = false ∧ encEdge signed b = b) := by
  have h1 : encInTransfer b = true → b.enc.state = .idle := by simp [encInTransfer]
  have h2 : encSnkTransfer b = true → b.enc.state = .emit := by simp [encSnkTransfer]
  unfold encEdge
  by_cases hi : encInTransfer b = true
  · simp [hi]
  · by_cases hs : encSnkTransfer b = true
    · simp [hi, hs]
    · by_cases hr : encResTransfer b = true <;> simp [hi, hs, hr]

/-- A write that the sink takes, and one that fails. -/
theorem encWrite_cases (signed : Bool) (b : Block w) :
    (b.ports.encSnkErr = false ∧
      encWrite signed b = { b with enc := encAdvance signed b.enc, sink := b.sink ++ [encByte signed b.enc.val] }) ∨
    (b.ports.encSnkErr = true ∧
      encWrite signed b = raiseError .enc .ioError (snkHand (encByte signed b.enc.val) b)) := by
  cases h : b.ports.encSnkErr <;> simp [encWrite, snkAnswer, snkHand, h]

/-- What unit `DEC` can do at an edge: take a failing read, read a byte, give its result, or nothing. -/
theorem decEdge_cases (signed : Bool) (b : Block w) :
    (decSrcTransfer b = true ∧ b.ports.decSrcErr = true ∧ decEdge signed b = .next (raiseError .dec .ioError b)) ∨
    (decSrcTransfer b = true ∧ b.ports.decSrcErr = false ∧ contFlag b.ports.decSrcByte = true ∧
      decEdge signed b = readCont (payload b.ports.decSrcByte) b) ∨
    (decSrcTransfer b = true ∧ b.ports.decSrcErr = false ∧ contFlag b.ports.decSrcByte = false ∧
      decEdge signed b = readFinal signed (payload b.ports.decSrcByte) b) ∨
    (decResTransfer b = true ∧ decEdge signed b = .next (giveResult .dec b)) ∨
    (decSrcTransfer b = false ∧ decResTransfer b = false ∧ decEdge signed b = .next b) := by
  by_cases hs : decSrcTransfer b = true
  · cases he : b.ports.decSrcErr <;> cases hc : contFlag b.ports.decSrcByte <;>
      simp [decEdge, hs, decRead, srcRead, he, hc]
  · by_cases hr : decResTransfer b = true <;> simp [decEdge, hs, hr]

/-- One edge: reset wins; otherwise the encoder's step and then the decoder's, on the sampled ports. -/
theorem step_eq (s : State) :
    step s =
      if (nextPorts s.block).rst then .next (s.withBlock (resetRegisters (samplePorts s.block)))
      else s.lift (decEdge s.signed (encEdge s.signed (samplePorts s.block))) := by
  cases hs : s.signed <;>
    by_cases hr : (nextPorts s.block).rst = true <;>
    simp [step, clockEdge, runUnits, hr, State.encOperation, State.decOperation, exec, execEncU, execEncS, execDecU,
      execDecS, State.inInstance, State.sampled, State.lift, hs, State.withBlock]

end Sys2Proof.Machine
end

