-- ==== Sys2Proof/Laws/PerInstr.lean ====
section
/-!
SUPPORT. Per instruction: the code that `encode` gives it is accepted by its own row of the opcode table and by no other
(30_encoding.md R81, R94).
-/

namespace Sys2Proof.Laws.TableRow

/-- Exactly one row of the table accepts the instruction's code, and it has the instruction's mnemonic. -/
def Statement (i : Instr) : Prop :=
  (opcodeTable.filter (fun r => r.accepts (encode i))).map Row.mnemonic = [i.mnemonic]

theorem encU : Statement .encU := by unfold Statement; decide

theorem encS : Statement .encS := by unfold Statement; decide

theorem decU : Statement .decU := by unfold Statement; decide

theorem decS : Statement .decS := by unfold Statement; decide

theorem byteCont (p : Payload) : Statement (.byteCont p) := by
  unfold Statement; revert p; decide

theorem byteFinal (p : Payload) : Statement (.byteFinal p) := by
  unfold Statement; revert p; decide

end Sys2Proof.Laws.TableRow
end

