-- ==== Sys2Proof/Tests/Slice0.lean ====
section
/-!
SUPPORT. Tests of the model against the examples of spec/ (95_test_vectors.md, cited by their ids), and for every statement
with hypotheses a witness that meets them together.
-/

namespace Sys2Proof.Tests

open Sys2Proof.Machine

/-! ### Helpers -/

/-- The registers of `ENC` in `E_EMIT` with the value `v`. -/
def emitting {w : Nat} (v : BitVec w) : EncUnit w := ⟨.emit, v, 0#5, .ok⟩

/-- The registers of `DEC` in `D_RECV`. -/
def receiving {w : Nat} (acc : BitVec w) (off : BitVec 8) : DecUnit w := ⟨.recv, acc, off, .ok⟩

/-- A block after reset but for the registers and the ports. -/
def blockWith {w : Nat} (e : EncUnit w) (d : DecUnit w) (p : PortIn w) : Block w :=
  { Block.reset w with enc := e, dec := d, ports := p }

/-- An edge at which the host offers a value. -/
def offer {w : Nat} (v : BitVec w) : PortIn w := { PortIn.silent w with encInValid := true, encInValue := v }

/-- An edge at which the sink answers, with `err`. -/
def sinkAnswers (w : Nat) (err : Bool) : PortIn w := { PortIn.silent w with encSnkReady := true, encSnkErr := err }

/-- An edge at which the source fails. -/
def sourceFails (w : Nat) : PortIn w := { PortIn.silent w with decSrcValid := true, decSrcErr := true }

/-- An edge at which the host takes both results. -/
def takeResults (w : Nat) : PortIn w := { PortIn.silent w with encResReady := true, decResReady := true }

/-- An edge with `rst = 1` at which everything else is raised too. -/
def resetEdge (w : Nat) : PortIn w := { encDrive w with rst := true, decSrcValid := true, decSrcByte := 0x26#8 }

/-- The machine whose coming edges are these. -/
def withEdges (w : Nat) (signed : Bool) (edges : List (PortIn w)) : State :=
  ⟨w, signed, { Block.reset w with agenda := edges }⟩

/-- What a test looks at in a next state. -/
def seen {α : Type} (o : Host.Outcome State Fault Refusal) (f : State → α) : Option α :=
  match o with
  | .next t => some (f t)
  | .fault _ => none
  | .refused _ => none

/-! ### Decoding (30_encoding.md R80, R81, R94) -/

theorem test_decode_selector_encU : decode (.selector 0b00#2) = .encU := by decide
theorem test_decode_selector_encS : decode (.selector 0b01#2) = .encS := by decide
theorem test_decode_selector_decU : decode (.selector 0b10#2) = .decU := by decide
theorem test_decode_selector_decS : decode (.selector 0b11#2) = .decS := by decide
theorem test_decode_byte_cont : decodeWire 0b11000010#8 = .byteCont 0b1000010#7 := by decide
theorem test_decode_byte_final : decodeWire 0b00001010#8 = .byteFinal 0b0001010#7 := by decide
theorem test_decode_stream_empty : (decodeStream []).toOption = none := by decide
theorem test_decode_stream_one :
    (decodeStream [0x80#8, 0x01#8]).toOption = some (.byteCont 0#7, [0x01#8]) := by decide
theorem test_table_word_selector : decodeTableWord 8 1 = some .encS ∧ decodeTableWord 2 3 = some .decS := by decide
theorem test_table_word_byte :
    decodeTableWord 8 0x80 = some (.byteCont 0#7) ∧ decodeTableWord 8 0x7F = some (.byteFinal 0x7F#7) := by decide
theorem test_table_word_refused : decodeTableWord 2 4 = none ∧ decodeTableWord 16 0x180 = none := by decide

/-! ### Well-formedness: an ill-formed term for each check -/

theorem smoke_unsigned_operation_in_signed_instance : Instr.encU.availableIn true = false := by decide
theorem smoke_signed_operation_in_unsigned_instance : Instr.decS.availableIn false = false := by decide
theorem smoke_width_zero : supportedWidth 0 = false := by decide
theorem smoke_width_too_large : supportedWidth 129 = false := by decide
theorem smoke_width_not_admitted : admittedWidth 7 = false ∧ admittedWidth 128 = true := by decide

/-! ### Primitives (95 section 2.1) -/

theorem test_shl_P1_P2 : shl 0x01#8 7 = some 0x80#8 ∧ shl 0xFF#8 1 = some 0xFE#8 := by decide
theorem test_shl_P6 : shl 0x01#8 8 = none ∧ shl 0x01#8 14 = none := by decide
theorem test_shr_P7_P8 : shr 0x012C#16 7 = 0x0002#16 ∧ shr 0xFF#8 7 = 0x01#8 := by decide
theorem test_sar_P16_P17 : sar 0xDFFF#16 7 = 0xFFBF#16 ∧ sar 0xFFFF79AE#32 7 = 0xFFFFFEF3#32 := by decide
theorem test_low7_P20_P21 : low7 false 0x00029442#32 = 0x42#7 ∧ low7 true 0xFFFF79AE#32 = 0x2E#7 := by decide

/-! ### The operations as functions (95 sections 1.1, 2.2 to 2.4) -/

theorem test_enc_S2 : enc false 0x29442#64 = [0xC2#8, 0xA8#8, 0x0A#8] := by decide
theorem test_enc_S3_S5 :
    enc true 0x007F#16 = [0xFF#8, 0x00#8] ∧ enc true 0xFFFF79AE#32 = [0xAE#8, 0xF3#8, 0x7D#8] := by decide
theorem test_enc_zero_EU1_ES1 : enc false 0x00#8 = [0x00#8] ∧ enc true 0x00#8 = [0x00#8] := by decide
theorem test_enc_ES8_ES13 :
    enc true 0x80#8 = [0x80#8, 0x7F#8] ∧ enc true 0xDFFF#16 = [0xFF#8, 0xBF#8, 0x7F#8] := by decide
theorem test_enc_EU19 :
    enc false (BitVec.allOnes 128) = List.replicate 18 0xFF#8 ++ [0x03#8] := by decide
theorem test_dec_S2d :
    dec 64 false (answers [0xC2#8, 0xA8#8, 0x0A#8]) = .finished (.ok 0x29442#64) 3 := by decide
theorem test_dec_S5d :
    dec 32 true (answers [0xAE#8, 0xF3#8, 0x7D#8]) = .finished (.ok 0xFFFF79AE#32) 3 := by decide
theorem test_dec_DU6_DU9 :
    dec 8 false (answers [0x80#8, 0x02#8]) = .finished .invalidData 2 ∧
    dec 8 false (answers [0x80#8, 0x81#8, 0x00#8]) = .finished .invalidData 2 := by decide
theorem test_dec_DU10_DU11 :
    dec 8 false [.byte 0x80#8, .fail] = .finished .ioError 1 ∧ dec 8 false [.fail] = .finished .ioError 0 := by decide
theorem test_dec_DS6_DS9 :
    dec 8 true (answers [0x80#8, 0x7F#8]) = .finished (.ok 0x80#8) 2 ∧
    dec 8 true (answers [0xFF#8, 0x7E#8]) = .finished .invalidData 2 := by decide
theorem test_dec_DS19 :
    dec 16 true (answers [0x80#8, 0x80#8, 0x03#8]) = .finished .invalidData 3 ∧
    dec 16 true (answers [0x80#8, 0x80#8, 0x7C#8]) = .finished .invalidData 3 := by decide
theorem test_dec_Z6_Z8 :
    dec 7 true (answers [0x40#8]) = .finished (.ok 0x40#7) 1 ∧
    dec 7 true (answers [0xFF#8, 0x00#8]) = .finished .invalidData 2 := by decide
theorem test_dec_other_signedness_M1_M2 :
    dec 8 false (answers (enc true 0xFF#8)) = .finished (.ok 0x7F#8) 1 ∧
    dec 8 true (answers (enc false 0x40#8)) = .finished (.ok 0xC0#8) 1 := by decide

/-! ### One step of each instruction (95 section 3) -/

/-- Program 1, row 1: the value is taken and the first byte offered is 0xC2. -/
theorem test_encU_accept :
    seen (step (withEdges 64 false [offer 0x29442#64]))
      (fun t => (t.block.enc.state, t.block.enc.cnt, t.outputs.encSnkByte)) = some (.emit, 0#5, 0xC2#8) := by decide

/-- Program 1, row 4: the last byte ends the operation with the value unshifted. -/
theorem test_encU_last_byte :
    seen (exec .encU ⟨64, false, blockWith ⟨.emit, 0x0A#64, 2#5, .ok⟩ (receiving 0#64 0#8) (sinkAnswers 64 false)⟩)
      (fun t => (t.block.enc.state, t.block.enc.val.toNat, t.block.enc.cnt, t.block.sink)) =
    some (.done, 0x0A, 3#5, [0x0A#8]) := by decide

/-- Program 3, row 2: a continuation byte and the arithmetic shift. -/
theorem test_encS_write :
    seen (exec .encS ⟨32, true, blockWith (emitting 0xFFFF79AE#32) (receiving 0#32 0#8) (sinkAnswers 32 false)⟩)
      (fun t => (t.block.enc.state, t.block.enc.val.toNat, t.block.sink)) = some (.emit, 0xFFFFFEF3, [0xAE#8]) := by decide

/-- Program 4, row 3: a failing write; count and value stay. -/
theorem test_encU_failed_write :
    seen (exec .encU ⟨16, false, blockWith ⟨.emit, 0x0080#16, 1#5, .ok⟩ (receiving 0#16 0#8) (sinkAnswers 16 true)⟩)
      (fun t => (t.block.enc.state, t.block.enc.status, t.block.enc.val.toNat, t.block.enc.cnt)) =
    some (.done, .ioError, 0x0080, 1#5) := by decide

/-- Program 1, row 3 of `DEC`: the final byte completes 0x29442 and leaves the offset. -/
theorem test_decU_final :
    seen (exec .decU ⟨64, false, blockWith (EncUnit.reset 64) (receiving 0x1442#64 14#8) (byteDrive 64 0x0A#8)⟩)
      (fun t => (t.block.dec.state, t.block.dec.acc.toNat, t.block.dec.off)) = some (.done, 0x29442, 14#8) := by decide

/-- Program 2, row 3 of `DEC`: after the result of an error `d_status` keeps its dead value. -/
theorem test_decU_result_keeps_status :
    seen (exec .decU ⟨8, false, blockWith (EncUnit.reset 8) ⟨.done, 0x2C#8, 7#8, .invalidData⟩ (takeResults 8)⟩)
      (fun t => (t.block.dec.state, t.block.dec.acc.toNat, t.block.dec.off, t.block.dec.status)) =
    some (.recv, 0, 0#8, .invalidData) := by decide

/-- Program 3, row 3 of `DEC`: the sign fill from bit 21. -/
theorem test_decS_final :
    seen (exec .decS ⟨32, true, blockWith (EncUnit.reset 32) (receiving 0x39AE#32 14#8) (byteDrive 32 0x7D#8)⟩)
      (fun t => (t.block.dec.state, t.block.dec.acc.toNat)) = some (.done, 0xFFFF79AE) := by decide

/-- A failing read at the boundary offset is an I/O error (60_exceptions.md R206). -/
theorem test_decS_fail_at_boundary :
    seen (exec .decS ⟨8, true, blockWith (EncUnit.reset 8) (receiving 0x01#8 7#8) (sourceFails 8)⟩)
      (fun t => (t.block.dec.state, t.block.dec.status)) = some (.done, .ioError) := by decide

/-- Program 1, row 2 of `DEC`. -/
theorem test_byteCont :
    seen (exec (.byteCont 0x28#7) ⟨64, false, blockWith (EncUnit.reset 64) (receiving 0x42#64 7#8) (PortIn.silent 64)⟩)
      (fun t => (t.block.dec.acc.toNat, t.block.dec.off, t.block.taken)) = some (0x1442, 14#8, [0xA8#8]) := by decide

/-- Program 5 (b), row 2: the flag set at the boundary. -/
theorem test_byteCont_boundary :
    seen (exec (.byteCont 0x00#7) ⟨8, false, blockWith (EncUnit.reset 8) (receiving 0x00#8 7#8) (PortIn.silent 8)⟩)
      (fun t => (t.block.dec.state, t.block.dec.status, t.block.dec.off)) = some (.done, .invalidData, 7#8) := by decide

/-- Program 5 (a), row 7: a legal signed boundary byte above `MAX_LAST_BYTE`. -/
theorem test_byteFinal_boundary_signed :
    seen (exec (.byteFinal 0x7F#7) ⟨8, true, blockWith (EncUnit.reset 8) (receiving 0x00#8 7#8) (PortIn.silent 8)⟩)
      (fun t => (t.block.dec.status, t.block.dec.acc.toNat)) = some (.ok, 0x80) := by decide

/-- Program 2, row 2 of `DEC`: an unsigned boundary payload above `MAX_LAST_BYTE`; the accumulator stays. -/
theorem test_byteFinal_boundary_unsigned :
    seen (exec (.byteFinal 0x02#7) ⟨8, false, blockWith (EncUnit.reset 8) (receiving 0x2C#8 7#8) (PortIn.silent 8)⟩)
      (fun t => (t.block.dec.status, t.block.dec.acc.toNat)) = some (.invalidData, 0x2C) := by decide

/-- Program 6, row 3: reset in the middle of a decode, the source's byte not taken. -/
theorem test_reset_edge :
    seen (step ⟨32, false, { blockWith (EncUnit.reset 32) (receiving 0x765#32 14#8) (PortIn.silent 32) with
        agenda := [resetEdge 32] }⟩)
      (fun t => (t.block.dec.acc.toNat, t.block.dec.off, t.block.taken, t.block.enc.state)) =
    some (0, 0#8, [], .idle) := by decide

/-- With nothing on the agenda the machine after reset waits (70 R254). -/
theorem test_silence :
    seen (step State.reset) (fun t => (t.block.enc.state, t.block.enc.cnt, t.block.dec.state, t.block.dec.off)) =
    some (.idle, 0#5, .recv, 0#8) := by decide

/-- What the host places is what the next step runs, for every row of the table. -/
theorem test_placed_encS :
    seen (step (State.reset.withFetchWord 8 1)) (fun t => (t.signed, t.block.enc.state)) = some (true, .emit) := by decide
theorem test_placed_byteCont :
    seen (step (State.reset.withFetchWord 8 0x85)) (fun t => (t.block.dec.acc.toNat, t.block.dec.off)) =
    some (5, 7#8) := by decide

/-- `ENC.S` is not an operation of an unsigned instance. -/
theorem test_other_instance : ∀ b : Bool, b = false →
    exec .encS (State.resetFor 8 b) = .refused (.otherInstance "ENC.S") := by
  intro b h; subst h; rfl

/-! ### Witnesses: the hypotheses of each statement can be met -/

/-- An idle encoder offered a value. -/
def wAccept (signed : Bool) : State := ⟨8, signed, blockWith (EncUnit.reset 8) (receiving 0#8 0#8) (offer 0xFF#8)⟩

/-- An encoder in `E_EMIT` with a sink that answers. -/
def wWrite (signed err : Bool) (v : BitVec 8) : State :=
  ⟨8, signed, blockWith (emitting v) (receiving 0#8 0#8) (sinkAnswers 8 err)⟩

/-- Both units in DONE with this status, the host taking both results. -/
def wDone (signed : Bool) (st : Status) : State :=
  ⟨8, signed, blockWith ⟨.done, 0x01#8, 2#5, st⟩ ⟨.done, 0xFF#8, 7#8, st⟩ (takeResults 8)⟩

/-- A decoder in `D_RECV` that has taken one byte 0x80 | acc, or none. -/
def wRecv (w : Nat) (signed : Bool) (acc : BitVec w) (off : BitVec 8) (p : PortIn w) : State :=
  ⟨w, signed, { blockWith (EncUnit.reset w) (receiving acc off) p with
    taken := if off = 7#8 then [0x80#8 ||| acc.setWidth 8] else [] }⟩

/-- The same machine with one coming edge. -/
def wEdge {w : Nat} (signed : Bool) (b : Block w) (p : PortIn w) : State := ⟨w, signed, { b with agenda := [p] }⟩

theorem witness_LeftShiftIsPartial :
    (8 ≤ 8 ∧ 7 < 8) ∧ (0 % 7 = 0 ∧ 0 < maxShift 8) ∧ (7 % 7 = 0 ∧ 7 < maxShift 16) ∧ 1 ≤ boundaryBits 8 := by decide

theorem witness_WireByteClassIsItsFlag : 0x80 ≤ (0x80#8).toNat ∧ (0x7F#8).toNat ≤ 0x7F := by decide

theorem witness_ArithmeticRightShift : nEncMax 8 ≤ 2 := by decide

theorem witness_ByteConversions : (7 : Nat) ≤ 8 := by decide

theorem witness_LastByteByRange :
    isLast true 0x3F#8 = true ∧ isLast true 0x40#8 = false ∧ isLast true 0xC0#8 = true ∧ isLast true 0xBF#8 = false ∧
    isLast false 0x7F#8 = true ∧ isLast false 0x80#8 = false := by decide

theorem witness_EncAcceptTakesTheValue : ∀ signed : Bool,
    (wAccept signed).block.ports.rst = false ∧ (wAccept signed).block.ports.encInValid = true ∧
    (wAccept signed).block.enc.state = .idle ∧ (wAccept signed).signed = signed := by decide

/-- For the last byte (0x7F) and for one before it (0x80). -/
theorem witness_EncWriteOkUnsigned : ∀ v ∈ [0x7F#8, 0x80#8],
    (wWrite false false v).signed = false ∧ (wWrite false false v).block.ports.rst = false ∧
    (wWrite false false v).block.ports.encSnkReady = true ∧ (wWrite false false v).block.ports.encSnkErr = false ∧
    (wWrite false false v).block.enc.state = .emit := by decide

/-- For the last byte (63, -64) and for one before it (64, -65). -/
theorem witness_EncWriteOkSigned : ∀ v ∈ [0x3F#8, 0xC0#8, 0x40#8, 0xBF#8],
    (wWrite true false v).signed = true ∧ (wWrite true false v).block.ports.rst = false ∧
    (wWrite true false v).block.ports.encSnkReady = true ∧ (wWrite true false v).block.ports.encSnkErr = false ∧
    (wWrite true false v).block.enc.state = .emit := by decide

theorem witness_EncFailedWriteEndsTheOperation : ∀ signed : Bool,
    (wWrite signed true 0x80#8).block.ports.rst = false ∧ (wWrite signed true 0x80#8).block.ports.encSnkReady = true ∧
    (wWrite signed true 0x80#8).block.ports.encSnkErr = true ∧ (wWrite signed true 0x80#8).block.enc.state = .emit ∧
    (wWrite signed true 0x80#8).signed = signed := by decide

theorem witness_EncResultIsDelivered : ∀ signed : Bool, ∀ st ∈ [Status.ok, Status.ioError],
    (wDone signed st).block.ports.rst = false ∧ (wDone signed st).block.ports.encResReady = true ∧
    (wDone signed st).block.enc.state = .done ∧ (wDone signed st).block.enc.status ≠ .invalidData ∧
    (wDone signed st).signed = signed := by decide

/-- `E_EMIT` without a ready sink (the decoder's ports are driven), for both variants; and `rst = 1`. -/
theorem witness_EncWithoutTransferKeepsAll : ∀ signed : Bool,
    let s : State := ⟨8, signed, blockWith (emitting 0x80#8) (receiving 0#8 0#8) (decDrive 8 0x80#8)⟩
    let r : State := ⟨8, signed, blockWith (emitting 0x80#8) (receiving 0#8 0#8) (resetEdge 8)⟩
    s.block.enc.state = .emit ∧ s.block.ports.encSnkReady = false ∧ r.block.ports.rst = true := by decide

theorem witness_EncFrame :
    (seen (exec .encU (wWrite false false 0x80#8)) (fun _ => ())).isSome = true ∧
    (seen (exec .encS (wDone true .ok)) (fun _ => ())).isSome = true := by decide

theorem witness_DecFailingReadIsIoError : ∀ signed : Bool, ∀ off ∈ [0#8, 7#8],
    let s := wRecv 8 signed 0x00#8 off (sourceFails 8)
    s.block.ports.rst = false ∧ s.block.ports.decSrcValid = true ∧ s.block.ports.decSrcErr = true ∧
    s.block.dec.state = .recv ∧ s.signed = signed := by decide

/-- Both classes of byte, at offset 0 and at the boundary. -/
theorem witness_DecReadRunsTheByteClass : ∀ signed : Bool, ∀ off ∈ [0#8, 7#8], ∀ x ∈ [0x00#8, 0x80#8],
    let s := wRecv 8 signed 0x00#8 off (byteDrive 8 x)
    s.block.ports.rst = false ∧ s.block.ports.decSrcValid = true ∧ s.block.ports.decSrcErr = false ∧
    s.block.dec.state = .recv ∧ s.block.dec.off.toNat ≤ maxShift s.width ∧ s.signed = signed := by decide

/-- For `ByteContBelowBoundary`, `ByteFinalBelowBoundary` and `OnlyTheBoundaryByteIsChecked`: offset 0 at W = 8, the last
offset below the boundary at W = 16, and W = 7, where no bit is left to fill. -/
theorem witness_below_boundary :
    (wRecv 8 true 0x00#8 0#8 (PortIn.silent 8)).block.dec.off.toNat < maxShift 8 ∧
    (wRecv 16 true 0x0001#16 7#8 (PortIn.silent 16)).block.dec.off.toNat < maxShift 16 ∧
    (wRecv 7 true 0x00#7 0#8 (PortIn.silent 7)).block.dec.off.toNat < maxShift 7 ∧
    (wRecv 16 true 0x0001#16 7#8 (PortIn.silent 16)).block.dec.state = .recv ∧
    needsSignFill 8 true 0x40#7 0 = true ∧ needsSignFill 8 true 0x3F#7 0 = false ∧
    needsSignFill 7 true 0x40#7 0 = false := by decide

/-- For `BoundaryByteMustBeFinal`, `UnsignedBoundaryCheck` and `SignedBoundaryCheck`. -/
theorem witness_at_boundary : ∀ signed : Bool,
    (wRecv 8 signed 0x00#8 7#8 (PortIn.silent 8)).block.dec.state = .recv ∧
    (wRecv 8 signed 0x00#8 7#8 (PortIn.silent 8)).block.dec.off.toNat = maxShift 8 ∧ 1 ≤ boundaryBits 8 ∧
    (wRecv 8 signed 0x00#8 7#8 (PortIn.silent 8)).signed = signed := by decide

/-- Both sides of `MAX_LAST_BYTE`. -/
theorem witness_UnsignedBoundaryCheck : (0x01#7).toNat ≤ maxLastByte 8 ∧ maxLastByte 8 < (0x02#7).toNat := by decide

/-- Both sides of both ends of the legal range, at K = 1 and K = 4. -/
theorem witness_SignedBoundaryCheck :
    legalLastS 0x00#7 0#8 = true ∧ legalLastS 0x01#7 0#8 = false ∧ legalLastS 0x7E#7 0#8 = false ∧
    legalLastS 0x7F#7 0#8 = true ∧ legalLastS 0x07#7 0#32 = true ∧ legalLastS 0x08#7 0#32 = false ∧
    legalLastS 0x77#7 0#32 = false ∧ legalLastS 0x78#7 0#32 = true := by decide

/-- W = 7, with the sign clear and set. -/
theorem witness_BoundaryCheckOfMultiplesOfSeven : ∀ signed : Bool, ∀ acc ∈ [0x3F#7, 0x7F#7],
    (wRecv 7 signed acc 7#8 (PortIn.silent 7)).block.dec.state = .recv ∧
    (wRecv 7 signed acc 7#8 (PortIn.silent 7)).block.dec.off.toNat = maxShift 7 ∧ boundaryBits 7 = 0 ∧
    legalLast signed 0x00#7 acc = (!signed || !acc.msb) ∧ legalLast signed 0x7F#7 acc = (signed && acc.msb) := by decide

/-- For `AccumulatePlacesThePayload` and `SignExtensionBelowBoundary`: one byte taken at W = 16. -/
theorem witness_accumulate : ∀ signed : Bool,
    (wRecv 16 signed 0x0055#16 7#8 (PortIn.silent 16)).Inv ∧
    (wRecv 16 signed 0x0055#16 7#8 (PortIn.silent 16)).block.dec.state = .recv ∧
    (wRecv 16 signed 0x0055#16 7#8 (PortIn.silent 16)).block.dec.off.toNat < maxShift 16 ∧
    (wRecv 16 signed 0x0055#16 7#8 (PortIn.silent 16)).signed = signed := by decide

theorem witness_NoByteIsTakenInDone : ∀ signed : Bool,
    let s : State := ⟨8, signed, blockWith (EncUnit.reset 8) ⟨.done, 0x01#8, 7#8, .ok⟩ (byteDrive 8 0x80#8)⟩
    s.block.dec.state = .done ∧ s.block.ports.decResReady = false := by decide

theorem witness_DecResultIsDelivered : ∀ signed : Bool, ∀ st ∈ [Status.ok, Status.ioError, Status.invalidData],
    (wDone signed st).block.ports.rst = false ∧ (wDone signed st).block.ports.decResReady = true ∧
    (wDone signed st).block.dec.state = .done ∧ (wDone signed st).block.dec.status = st := by decide

/-- An `err` input without a transfer. -/
theorem witness_DecWithoutTransferKeepsAll : ∀ signed : Bool,
    let s := wRecv 8 signed 0x00#8 7#8 { PortIn.silent 8 with decSrcErr := true, decResReady := true }
    s.block.dec.state = .recv ∧ s.block.ports.decSrcValid = false := by decide

theorem witness_DecFrame :
    (seen (exec .decU (wDone false .ok)) (fun _ => ())).isSome = true ∧
    (seen (exec (.byteCont 0x01#7) (wRecv 8 true 0#8 0#8 (PortIn.silent 8))) (fun _ => ())).isSome = true ∧
    (seen (exec (.byteFinal 0x7F#7) (wRecv 8 true 0#8 7#8 (PortIn.silent 8))) (fun _ => ())).isSome = true := by decide

theorem witness_RefusedOnlyInTheOtherInstance :
    (wDone false .ok).block.dec.off.toNat ≤ maxShift 8 ∧ Instr.decU.availableIn false = true ∧
    Instr.decS.availableIn false = false := by decide

/-- Two blocks that agree on `ENC` and its ports only, and two that agree on `DEC` and its ports only. -/
theorem witness_UnitsShareNothing :
    let b := blockWith (emitting 0x80#8) (receiving 0x05#8 7#8) (sinkAnswers 8 false)
    let c := blockWith (emitting 0x80#8) (receiving 0#8 0#8) { sinkAnswers 8 false with decSrcValid := true }
    let d := blockWith (EncUnit.reset 8) (receiving 0x05#8 7#8) (offer 0xFF#8)
    b.ports.rst = c.ports.rst ∧ b.enc = c.enc ∧ b.dec ≠ c.dec ∧ b.dec = d.dec ∧ b.enc ≠ d.enc ∧
    b.ports.encSnkReady = c.ports.encSnkReady ∧ b.ports.encSnkErr = c.ports.encSnkErr ∧
    b.ports.decSrcValid = d.ports.decSrcValid ∧ b.dec.off.toNat ≤ maxShift 8 := by decide

theorem witness_StepRunsBothUnits : ∀ signed : Bool,
    (nextPorts (withEdges 8 signed [encDrive 8]).block).rst = false := by decide

/-- A byte of each class, the encoder having its sink not ready. -/
theorem witness_StepRunsTheDeliveredByte : ∀ signed : Bool, ∀ x ∈ [0x7F#8, 0x80#8],
    let s := wEdge signed (blockWith (emitting 0x80#8) (receiving 0#8 0#8) (PortIn.silent 8)) (byteDrive 8 x)
    (nextPorts s.block).rst = false ∧ (nextPorts s.block).decSrcValid = true ∧ (nextPorts s.block).decSrcErr = false ∧
    s.block.dec.state = .recv ∧ (nextPorts s.block).encSnkReady = false := by decide

theorem witness_StepRunsThePlacedWord :
    decodeTableWord 8 0 = some .encU ∧ decodeTableWord 8 1 = some .encS ∧ decodeTableWord 8 2 = some .decU ∧
    decodeTableWord 8 3 = some .decS ∧ decodeTableWord 8 4 = some (.byteFinal 4#7) ∧
    decodeTableWord 8 255 = some (.byteCont 127#7) := by decide

theorem witness_ResetEdgeWins : (nextPorts (withEdges 8 false [resetEdge 8]).block).rst = true := by decide

/-- The encoder waits while a byte arrives, and the decoder holds a result while a value is accepted. -/
theorem witness_UnitsHoldUntilTheirTransfer :
    (seen (step (wEdge false (blockWith (emitting 0x80#8) (receiving 0#8 0#8) (PortIn.silent 8)) (byteDrive 8 0x80#8)))
      (fun t => (t.block.enc.state, t.block.dec.off))) = some (.emit, 7#8) ∧
    (seen (step (wEdge false (blockWith (EncUnit.reset 8) ⟨.done, 0x01#8, 0#8, .ok⟩ (PortIn.silent 8)) (encDrive 8)))
      (fun t => (t.block.enc.state, t.block.dec.state))) = some (.emit, .done) := by decide

theorem witness_StepOnlyAddsToTheRecords :
    (seen (step (withEdges 8 true [byteDrive 8 0x7F#8])) (fun t => t.block.taken)) = some [0x7F#8] := by decide

theorem witness_InvariantHoldsAtReset : supportedWidth 1 = true ∧ supportedWidth 128 = true := by decide

/-- For `StepKeepsTheInvariant` and `InvariantStepAnswersNext`: both units in flight, at a byte for each. -/
def wBusy : State :=
  ⟨16, true, { blockWith (emitting 0x2000#16) (receiving 0x55#16 7#8) (PortIn.silent 16) with
    taken := [0xD5#8]
    agenda := [{ encDrive 16 with decSrcValid := true, decSrcByte := 0x80#8 }] }⟩

theorem witness_invariant_state : wBusy.Inv ∧ (seen (step wBusy) (fun t => (t.block.sink, t.block.dec.off))) =
    some ([0x80#8], 14#8) := by decide

theorem witness_EncoderProgress :
    wBusy.Inv ∧ wBusy.block.enc.state = .emit ∧ wBusy.block.sink = [] ++ [] ∧
    [] ++ enc wBusy.signed wBusy.block.enc.val = enc true 0x2000#16 ∧ wBusy.block.enc.cnt.toNat = 0 ∧
    (nextPorts wBusy.block).rst = false := by decide

/-- A block after reset with one coming edge. -/
def wFirst : Block 8 := { Block.reset 8 with agenda := [encDrive 8] }

/-- A block after operations of both units that ended in errors, with the same coming edge. -/
def wLater : Block 8 :=
  { wFirst with enc := ⟨.idle, 0x81#8, 1#5, .ioError⟩, dec := ⟨.recv, 0#8, 0#8, .invalidData⟩, sink := [0x80#8] }

/-- The machine of such a block. -/
def wQuiet (b : Block 8) : State := ⟨8, false, b⟩

theorem witness_QuiescentMachinesBehaveAlike :
    (wQuiet wFirst).Inv ∧ (wQuiet wLater).Inv ∧ (wQuiet wFirst).Quiescent ∧ (wQuiet wLater).Quiescent ∧
    wFirst.agenda = wLater.agenda ∧ wFirst.enc ≠ wLater.enc ∧ wFirst.dec ≠ wLater.dec :=
  ⟨by decide, by decide, by decide, by decide, rfl, by decide, by decide⟩

theorem witness_InvalidDataOnlyAtTheBoundary :
    (wEdge false (wRecv 8 false 0#8 7#8 (PortIn.silent 8)).block (byteDrive 8 0x80#8)).block.dec.state = .recv ∧
    (seen (step (wEdge false (wRecv 8 false 0#8 7#8 (PortIn.silent 8)).block (byteDrive 8 0x80#8)))
      (fun t => (t.block.dec.state, t.block.dec.status))) = some (.done, .invalidData) := by decide

/-- An encode of 0x80 at W = 8: two bytes, the sink not ready at one edge in between. -/
def wEncode : State :=
  withEdges 8 false [offer 0x80#8, sinkAnswers 8 false, byteDrive 8 0x80#8, sinkAnswers 8 false, takeResults 8]

theorem witness_EncodeDeliversCountAndBytes :
    let mid := [sinkAnswers 8 false, byteDrive 8 0x80#8, sinkAnswers 8 false]
    wEncode.Inv ∧ wEncode.block.enc.state = .idle ∧
    wEncode.block.agenda = offer 0x80#8 :: (mid ++ [takeResults 8]) ∧
    (offer 0x80#8).rst = false ∧ (offer 0x80#8).encInValid = true ∧
    (∀ p ∈ mid, p.rst = false ∧ p.encSnkErr = false ∧ p.encResReady = false) ∧
    (enc wEncode.signed 0x80#8).length ≤ sinkReadyEdges mid ∧
    (takeResults 8).rst = false ∧ (takeResults 8).encResReady = true :=
  ⟨by decide, rfl, rfl, rfl, rfl, by decide, by decide, rfl, rfl⟩

/-- An encode of 0x80 at W = 8 whose second write fails. -/
def wEncodeFails : State :=
  withEdges 8 false [offer 0x80#8, sinkAnswers 8 false, sinkAnswers 8 true, PortIn.silent 8]

theorem witness_EncodeStopsAtTheFailedWrite :
    wEncodeFails.Inv ∧ wEncodeFails.block.enc.state = .idle ∧
    wEncodeFails.block.agenda = offer 0x80#8 :: ([sinkAnswers 8 false] ++ sinkAnswers 8 true :: [PortIn.silent 8]) ∧
    (offer 0x80#8).rst = false ∧ (offer 0x80#8).encInValid = true ∧
    (∀ p ∈ [sinkAnswers 8 false], p.rst = false ∧ p.encSnkErr = false ∧ p.encResReady = false) ∧
    sinkReadyEdges [sinkAnswers 8 false] < (enc wEncodeFails.signed 0x80#8).length ∧
    (sinkAnswers 8 true).rst = false ∧ (sinkAnswers 8 true).encSnkReady = true ∧
    (sinkAnswers 8 true).encSnkErr = true ∧
    (∀ p ∈ [PortIn.silent 8], p.rst = false ∧ p.encResReady = false) :=
  ⟨by decide, rfl, rfl, rfl, rfl, by decide, by decide, rfl, rfl, rfl, by decide⟩

/-- A decode of [0xFF, 0x00] at W = 8 signed, one edge without an answer in between. -/
def wDecode : State := withEdges 8 true [byteDrive 8 0xFF#8, PortIn.silent 8, byteDrive 8 0x00#8]

theorem witness_DecodeRunComputesDec :
    wDecode.Inv ∧ DecFresh wDecode.block ∧
    (∀ p ∈ wDecode.block.agenda, p.rst = false ∧ p.decResReady = false) ∧
    dec wDecode.width wDecode.signed (sourceAnswers wDecode.block.agenda) = .finished (.ok 0x7F#8) 2 := by decide

/-- For `EncodeDenotesItsValue`, `EncodeIsCanonical` and `DecodeIsNumericallyExact`: a padded wire form, one in range and one
out of range at W = 8, and two continuation bytes. -/
theorem witness_wire_forms :
    isWireForm [0x80#8, 0x00#8] = true ∧ reading false [0x80#8, 0x00#8] = valueOf false 0x00#8 ∧
    Representable 8 true (reading true [0x80#8, 0x7F#8]) ∧ ¬Representable 8 true (reading true [0x80#8, 0x01#8]) ∧
    isWireForm [0x80#8, 0x7F#8] = true ∧ isWireForm [0x80#8, 0x01#8] = true ∧
    (∀ x ∈ [0x80#8, 0x81#8], contFlag x = true) ∧ [0x80#8, 0x81#8].length = nDecMax 8 ∧
    isWireForm [0x7F#8] = true ∧ [0x7F#8].length < nDecMax 8 := by decide

theorem witness_DecodeFailsWithItsSource :
    (∀ x ∈ [0x80#8], contFlag x = true) ∧ [0x80#8].length < nDecMax 8 := by decide

theorem witness_RoundTripLaw : admittedWidth 8 = true ∧ admittedWidth 128 = true := by decide

/-- 255 and 300 from 16 bits to 8 (95 S6, S7). -/
theorem witness_OverflowRejectionLaw :
    admittedWidth 16 = true ∧ admittedWidth 8 = true ∧ Representable 8 false (valueOf false 0x00FF#16) ∧
    ¬Representable 8 false (valueOf false 0x012C#16) := by decide

end Sys2Proof.Tests
end

section
/-!
PROOF. 00_scope.md: the derived constants of the width (R8).
-/

namespace Sys2Proof.Machine

/-! ### `N_ENC_MAX` is the ceiling of `W / 7`: the one number between these two bounds -/

theorem seven_mul_nEncMax_lt (w : Nat) : 7 * nEncMax w < w + 7 := by
  unfold nEncMax; omega

theorem le_seven_mul_nEncMax (w : Nat) : w ≤ 7 * nEncMax w := by
  unfold nEncMax; omega

/-- Settles O6: the formulas are the definitions, the bounds are `boundaryBits_le` and the two halves of the ceiling, and
the table of R8 is evaluated. -/
theorem derivedConstants : Obligations.DerivedConstants := by
  unfold Obligations.DerivedConstants
  constructor
  · intro w
    exact ⟨rfl, rfl, boundaryBits_le w, rfl, rfl, seven_mul_nEncMax_lt w, le_seven_mul_nEncMax w⟩
  · decide

end Sys2Proof.Machine
end

section
/-!
PROOF. 10_state.md: the reset state and the outputs as functions of the registers (R33 to R35).
-/

namespace Sys2Proof.Machine

variable {w : Nat}

/-! ### The two halves of the byte that the encoder offers -/

/-- The two forms of the predicate `last` (41_encode.md R132, R133) are `isLast`. -/
theorem isLast_eq (signed : Bool) (x : BitVec w) :
    isLast signed x = if signed then lastS (sar x 7) (low7 true x) else lastU (shr x 7) := by
  cases signed <;> rfl

@[simp] theorem contFlag_encByte (signed : Bool) (x : BitVec w) : contFlag (encByte signed x) = !isLast signed x :=
  contFlag_wireByte _ _

@[simp] theorem payload_encByte (signed : Bool) (x : BitVec w) : payload (encByte signed x) = low7 signed x :=
  payload_wireByte _ _

/-! ### The outputs in each state -/

theorem outputs_encSnkByte {signed : Bool} {b : Block w} (h : b.enc.state = .emit) :
    (outputs signed b).encSnkByte = encByte signed b.enc.val := if_pos h

theorem outputs_encResStatus {signed : Bool} {b : Block w} (h : b.enc.state = .done) :
    (outputs signed b).encResStatus = statusCode b.enc.status := if_pos h

theorem outputs_encResCount {signed : Bool} {b : Block w} (h : b.enc.state = .done) (hok : b.enc.status = .ok) :
    (outputs signed b).encResCount = b.enc.cnt := if_pos ⟨h, hok⟩

theorem outputs_decResStatus {signed : Bool} {b : Block w} (h : b.dec.state = .done) :
    (outputs signed b).decResStatus = statusCode b.dec.status := if_pos h

theorem outputs_decResValue {signed : Bool} {b : Block w} (h : b.dec.state = .done) (hok : b.dec.status = .ok) :
    (outputs signed b).decResValue = b.dec.acc := if_pos ⟨h, hok⟩

/-- One channel of `ENC` is enabled, whatever its state. -/
theorem count_encChannels (signed : Bool) (b : Block w) :
    [(outputs signed b).encInReady, (outputs signed b).encSnkValid, (outputs signed b).encResValid].count true = 1 := by
  unfold outputs
  cases b.enc.state <;> rfl

/-- One channel of `DEC` is enabled, whatever its state. -/
theorem decSrcReady_eq_not_decResValid (signed : Bool) (b : Block w) :
    (outputs signed b).decSrcReady = !(outputs signed b).decResValid := by
  unfold outputs
  cases b.dec.state <;> rfl

/-- Settles O41: every field of the reset state is its tabulated value by definition, and the outputs after reset are those
of `E_IDLE` and `D_RECV`. -/
theorem resetStateIsAsTabulated : Obligations.ResetStateIsAsTabulated := by
  intro w signed
  exact ⟨rfl, rfl, rfl, rfl, rfl, rfl, rfl, rfl, rfl, rfl, rfl, rfl, rfl⟩

/-- Settles O42: each handshake line is a test of `e_state`, and the byte is read through `contFlag` and `payload`. -/
theorem encOutputs : Obligations.EncOutputs := by
  intro s
  refine ⟨beq_iff_eq, beq_iff_eq, beq_iff_eq, fun hemit => ?_, outputs_encResStatus, outputs_encResCount,
    count_encChannels s.signed s.block⟩
  have hbyte : s.outputs.encSnkByte = encByte s.signed s.block.enc.val := outputs_encSnkByte hemit
  rw [hbyte, ← isLast_eq]
  exact ⟨contFlag_encByte _ _, payload_encByte _ _⟩

/-- Settles O43: each handshake line is a test of `d_state`. -/
theorem decOutputs : Obligations.DecOutputs := by
  intro s
  exact ⟨beq_iff_eq, beq_iff_eq, outputs_decResStatus, outputs_decResValue,
    decSrcReady_eq_not_decResValid s.signed s.block⟩

end Sys2Proof.Machine
end

section
/-!
PROOF. 10_state.md R21: a step of one unit reads and writes only that unit's registers and ports.
-/

namespace Sys2Proof.Machine

variable {w : Nat}

/-! ### The operations of the two units, on the block -/

theorem exec_encOperation (s : State) : exec s.encOperation s = .next (s.withBlock (encEdge s.signed s.block)) := by
  obtain ⟨_, signed, _⟩ := s
  cases signed <;> rfl

theorem exec_decOperation (s : State) : exec s.decOperation s = s.lift (decEdge s.signed s.block) := by
  obtain ⟨_, signed, _⟩ := s
  cases signed <;> rfl

theorem exec_decOperation_of_next {s : State} {b : Block s.width} (h : decEdge s.signed s.block = .next b) :
    exec s.decOperation s = .next (s.withBlock b) := by
  rw [exec_decOperation, h, State.lift_next]

/-! ### Unit `ENC` -/

theorem encWrite_enc (signed : Bool) (b : Block w) :
    (encWrite signed b).enc =
      if b.ports.encSnkErr then { b.enc with status := .ioError, state := .done } else encAdvance signed b.enc := by
  obtain ⟨herr, hwrite⟩ | ⟨herr, hwrite⟩ := encWrite_cases signed b <;> simp [herr, hwrite, errorStatus]

@[simp] theorem encWrite_dec (signed : Bool) (b : Block w) : (encWrite signed b).dec = b.dec := by
  obtain ⟨-, hwrite⟩ | ⟨-, hwrite⟩ := encWrite_cases signed b <;> simp [hwrite]

@[simp] theorem encEdge_dec (signed : Bool) (b : Block w) : (encEdge signed b).dec = b.dec := by
  obtain ⟨-, hedge⟩ | ⟨-, hedge⟩ | ⟨-, hedge⟩ | ⟨-, -, -, hedge⟩ := encEdge_cases signed b <;> simp [hedge]

/-- The registers of `ENC` after its edge, in terms of `ENC`'s registers and ports and of `rst`. -/
theorem encEdge_enc (signed : Bool) (b : Block w) :
    (encEdge signed b).enc =
      if encInTransfer b then { b.enc with val := b.ports.encInValue, cnt := 0#5, state := .emit }
      else if encSnkTransfer b then
        if b.ports.encSnkErr then { b.enc with status := .ioError, state := .done } else encAdvance signed b.enc
      else if encResTransfer b then { b.enc with state := .idle }
      else b.enc := by
  simp only [encEdge, apply_ite Block.enc, encAccept_enc, encWrite_enc, giveResult_enc_enc]

/-- `rst` and the input ports of `ENC` have the same values in both (10_state.md R26). `snkKeeps` is no port: it speaks of
the sink. -/
structure EncPortsAgree (p q : PortIn w) : Prop where
  rst : p.rst = q.rst
  inValid : p.encInValid = q.encInValid
  inValue : p.encInValue = q.encInValue
  snkReady : p.encSnkReady = q.encSnkReady
  snkErr : p.encSnkErr = q.encSnkErr
  resReady : p.encResReady = q.encResReady

/-- The edge of `ENC` reads only `ENC`'s registers and ports. -/
theorem encEdge_enc_congr (signed : Bool) {b c : Block w} (henc : b.enc = c.enc) (hp : EncPortsAgree b.ports c.ports) :
    (encEdge signed b).enc = (encEdge signed c).enc := by
  have hin : encInTransfer b = encInTransfer c := by simp only [encInTransfer, hp.rst, hp.inValid, henc]
  have hsnk : encSnkTransfer b = encSnkTransfer c := by simp only [encSnkTransfer, hp.rst, hp.snkReady, henc]
  have hres : encResTransfer b = encResTransfer c := by simp only [encResTransfer, hp.rst, hp.resReady, henc]
  rw [encEdge_enc, encEdge_enc, hin, hsnk, hres, henc, hp.inValue, hp.snkErr]

/-! ### Unit `DEC`: up to `MAX_SHIFT` its edge answers a next state -/

theorem absorbCont_ne_noShift {p : Payload} {acc : BitVec w} {off : Nat} (h : off ≤ maxShift w) :
    absorbCont p acc off ≠ .noShift := by
  obtain hlt | rfl := h.lt_or_eq
  · simp [absorbCont_below hlt]
  · simp [absorbCont_boundary]

theorem absorbFinal_ne_noShift {signed : Bool} {p : Payload} {acc : BitVec w} {off : Nat} (h : off ≤ maxShift w) :
    absorbFinal signed p acc off ≠ .noShift := by
  obtain hlt | rfl := h.lt_or_eq
  · simp [absorbFinal_below hlt]
  · rw [absorbFinal_boundary]
    split <;> simp

theorem applyAbsorbed_answers {a : Absorbed w} (h : a ≠ .noShift) (b : Block w) : ∃ c, applyAbsorbed a b = .next c := by
  cases a with
  | noShift => exact absurd rfl h
  | more acc => exact ⟨_, rfl⟩
  | value acc => exact ⟨_, rfl⟩
  | invalid => exact ⟨_, rfl⟩

theorem readByte_answers {a : Absorbed w} (h : a ≠ .noShift) (x : Byte) (b : Block w) :
    ∃ c, readByte x a b = .next c := by
  unfold readByte
  cases b.dec.state with
  | recv => exact applyAbsorbed_answers h _
  | done => exact ⟨b, rfl⟩

theorem decEdge_answers (signed : Bool) {b : Block w} (h : b.dec.off.toNat ≤ maxShift w) :
    ∃ c, decEdge signed b = .next c := by
  obtain ⟨-, -, hedge⟩ | ⟨-, -, -, hedge⟩ | ⟨-, -, -, hedge⟩ | ⟨-, hedge⟩ | ⟨-, -, hedge⟩ := decEdge_cases signed b
  case inl | inr.inr.inr.inl | inr.inr.inr.inr => exact ⟨_, hedge⟩
  case inr.inl => exact hedge ▸ readByte_answers (absorbCont_ne_noShift h) _ b
  case inr.inr.inl => exact hedge ▸ readByte_answers (absorbFinal_ne_noShift h) _ b

/-! ### Unit `DEC`: its edge leaves `ENC`'s registers -/

theorem applyAbsorbed_enc {a : Absorbed w} {b c : Block w} (h : applyAbsorbed a b = .next c) : c.enc = b.enc := by
  obtain ⟨_, -, rfl⟩ | ⟨_, -, rfl⟩ | ⟨-, rfl⟩ := applyAbsorbed_eq_next.1 h <;> rfl

theorem readByte_enc {x : Byte} {a : Absorbed w} {b c : Block w} (h : readByte x a b = .next c) : c.enc = b.enc := by
  obtain ⟨-, h⟩ | ⟨-, rfl⟩ := readByte_eq_next.1 h
  · simpa using applyAbsorbed_enc h
  · rfl

theorem decEdge_enc {signed : Bool} {b c : Block w} (h : decEdge signed b = .next c) : c.enc = b.enc := by
  obtain ⟨-, -, hedge⟩ | ⟨-, -, -, hedge⟩ | ⟨-, -, -, hedge⟩ | ⟨-, hedge⟩ | ⟨-, -, hedge⟩ := decEdge_cases signed b <;>
    rw [hedge] at h
  case inl | inr.inr.inr.inl | inr.inr.inr.inr => cases h; rfl
  case inr.inl | inr.inr.inl => exact readByte_enc h

/-! ### Unit `DEC`: its edge reads only its own registers and ports -/

/-- What an outcome of the block says of the registers of `DEC`. -/
def decRegisters (o : Host.Outcome (Block w) Fault Refusal) : Host.Outcome (DecUnit w) Fault Refusal :=
  andThen o (fun b => .next b.dec)

@[simp] theorem decRegisters_next (b : Block w) : decRegisters (.next b) = .next b.dec := rfl

theorem decRegisters_applyAbsorbed_congr (a : Absorbed w) {b c : Block w} (h : b.dec = c.dec) :
    decRegisters (applyAbsorbed a b) = decRegisters (applyAbsorbed a c) := by
  cases a <;> simp [applyAbsorbed, h, decRegisters]

theorem decRegisters_readByte_congr (x : Byte) (a : Absorbed w) {b c : Block w} (h : b.dec = c.dec) :
    decRegisters (readByte x a b) = decRegisters (readByte x a c) := by
  unfold readByte
  rw [h]
  cases c.dec.state with
  | recv => exact decRegisters_applyAbsorbed_congr a h
  | done => simp [h]

theorem decRegisters_readCont_congr (p : Payload) {b c : Block w} (h : b.dec = c.dec) :
    decRegisters (readCont p b) = decRegisters (readCont p c) := by
  unfold readCont
  rw [h]
  exact decRegisters_readByte_congr _ _ h

theorem decRegisters_readFinal_congr (signed : Bool) (p : Payload) {b c : Block w} (h : b.dec = c.dec) :
    decRegisters (readFinal signed p b) = decRegisters (readFinal signed p c) := by
  unfold readFinal
  rw [h]
  exact decRegisters_readByte_congr _ _ h

/-- `rst` and the input ports of `DEC` have the same values in both (10_state.md R27). -/
structure DecPortsAgree (p q : PortIn w) : Prop where
  rst : p.rst = q.rst
  srcValid : p.decSrcValid = q.decSrcValid
  srcByte : p.decSrcByte = q.decSrcByte
  srcErr : p.decSrcErr = q.decSrcErr
  resReady : p.decResReady = q.decResReady

theorem decRegisters_decRead_congr (signed : Bool) {b c : Block w} (hdec : b.dec = c.dec)
    (hp : DecPortsAgree b.ports c.ports) : decRegisters (decRead signed b) = decRegisters (decRead signed c) := by
  have hsrc : srcRead b = srcRead c := by simp only [srcRead, hp.srcErr, hp.srcByte]
  unfold decRead
  rw [hsrc]
  cases srcRead c with
  | fail => simp [hdec]
  | byte x =>
    dsimp only
    split
    · exact decRegisters_readCont_congr _ hdec
    · exact decRegisters_readFinal_congr signed _ hdec

theorem decRegisters_decEdge_congr (signed : Bool) {b c : Block w} (hdec : b.dec = c.dec)
    (hp : DecPortsAgree b.ports c.ports) : decRegisters (decEdge signed b) = decRegisters (decEdge signed c) := by
  have hsrc : decSrcTransfer b = decSrcTransfer c := by simp only [decSrcTransfer, hp.rst, hp.srcValid, hdec]
  have hres : decResTransfer b = decResTransfer c := by simp only [decResTransfer, hp.rst, hp.resReady, hdec]
  unfold decEdge
  rw [hsrc, hres]
  split
  · exact decRegisters_decRead_congr signed hdec hp
  · split <;> simp [hdec]

/-! ### The two units share nothing -/

/-- Settles O35: each unit's edge answers a next state, its registers there depend on its own registers and ports only, and
the other unit's registers stay. -/
theorem unitsShareNothing : Obligations.UnitsShareNothing := by
  intro w signed b c hrst
  constructor
  · intro henc hvalid hvalue hready herr hres
    have hagree := encEdge_enc_congr signed henc ⟨hrst, hvalid, hvalue, hready, herr, hres⟩
    exact ⟨encEdge signed b, encEdge signed c, exec_encOperation ⟨w, signed, b⟩, exec_encOperation ⟨w, signed, c⟩,
      hagree, encEdge_dec signed b, encEdge_dec signed c⟩
  · intro hdec hvalid hbyte herr hres hoff
    obtain ⟨b', hb⟩ := decEdge_answers signed hoff
    obtain ⟨c', hc⟩ := decEdge_answers signed (hdec ▸ hoff)
    have hagree := decRegisters_decEdge_congr signed hdec ⟨hrst, hvalid, hbyte, herr, hres⟩
    refine ⟨b', c', exec_decOperation_of_next (s := ⟨w, signed, b⟩) hb,
      exec_decOperation_of_next (s := ⟨w, signed, c⟩) hc, ?_, decEdge_enc hb, decEdge_enc hc⟩
    simpa [hb, hc] using hagree

end Sys2Proof.Machine
end

section
/-!
PROOF. 30_encoding.md, section 1: the two fields of a wire byte and its class (R80, R81).
-/

namespace Sys2Proof.Machine

/-! ### The class of a wire byte is its flag -/

/-- The range of byte values of a class (R81). -/
theorem contFlag_iff_toNat {x : Byte} : contFlag x = true ↔ 0x80 ≤ x.toNat := by
  revert x; decide

/-- The match `0x80` under the mask `0x80` (R81). -/
theorem and_mask_eq_mask_iff {x : Byte} : x &&& 0x80#8 = 0x80#8 ↔ contFlag x = true := by
  revert x; decide

/-- The match `0x00` under the mask `0x80` (R81). -/
theorem and_mask_eq_zero_iff {x : Byte} : x &&& 0x80#8 = 0x00#8 ↔ contFlag x = false := by
  revert x; decide

theorem exists_decodeWire_eq_byteCont_iff {x : Byte} : (∃ p, decodeWire x = .byteCont p) ↔ contFlag x = true := by
  cases h : contFlag x <;> simp [decodeWire, h]

theorem exists_decodeWire_eq_byteFinal_iff {x : Byte} : (∃ p, decodeWire x = .byteFinal p) ↔ contFlag x = false := by
  cases h : contFlag x <;> simp [decodeWire, h]

/-- Settles O2: the ranges, the masks and the two classes are each a test of the flag. -/
theorem wireByteClassIsItsFlag : Obligations.WireByteClassIsItsFlag := by
  intro b
  refine ⟨fun h => decodeWire_of_contFlag (contFlag_iff_toNat.2 h), fun h => ?_, ?_, ?_⟩
  · have hflag : contFlag b = false := by rw [← Bool.not_eq_true, contFlag_iff_toNat]; omega
    exact decodeWire_of_not_contFlag hflag
  · rw [and_mask_eq_mask_iff, exists_decodeWire_eq_byteCont_iff]
  · rw [and_mask_eq_zero_iff, exists_decodeWire_eq_byteFinal_iff]

/-! ### The two fields -/

theorem getLsbD_payload {x : Byte} {i : Nat} (h : i < 7) : (payload x).getLsbD i = x.getLsbD i := by
  simp [payload, h]

/-- A wire byte is its two fields and nothing else. -/
theorem byte_ext {x y : Byte} (hflag : contFlag x = contFlag y) (hpayload : payload x = payload y) : x = y := by
  rw [← wireByte_contFlag_payload x, hflag, hpayload, wireByte_contFlag_payload]

/-- Settles O3: bit 7 is read by `contFlag` and the bits below it by `payload`. -/
theorem wireByteHasTwoFields : Obligations.WireByteHasTwoFields := by
  intro c p
  refine ⟨contFlag_wireByte c p, fun i hi => ?_⟩
  rw [← getLsbD_payload hi, payload_wireByte]

end Sys2Proof.Machine
end

section
/-!
PROOF. 41_encode.md and 40_numeric_primitives.md in numbers: what one round of the encoder's loop does to the value that is
left (R116, R118, R134).
-/

namespace Sys2Proof.Machine

variable {w : Nat}

/-! ### Integers that fit a number of bits -/

theorem representable_unsigned_iff {n : Nat} {v : Int} : Representable n false v ↔ 0 ≤ v ∧ v < 2 ^ n := Iff.rfl

theorem representable_signed_iff {n : Nat} {v : Int} : Representable n true v ↔ -2 ^ (n - 1) ≤ v ∧ v < 2 ^ (n - 1) :=
  Iff.rfl

theorem representable_valueOf (signed : Bool) (x : BitVec w) : Representable w signed (valueOf signed x) := by
  cases signed with
  | false =>
    have hlt : (x.toNat : Int) < 2 ^ w := mod_cast x.isLt
    exact representable_unsigned_iff.2 ⟨Int.natCast_nonneg x.toNat, hlt⟩
  | true => exact representable_signed_iff.2 ⟨x.le_toInt, x.toInt_lt⟩

theorem Representable.mono {m n : Nat} {signed : Bool} {v : Int} (hmn : m ≤ n) (h : Representable m signed v) :
    Representable n signed v := by
  cases signed with
  | false =>
    have hle : (2 : Int) ^ m ≤ 2 ^ n := by gcongr; decide
    exact ⟨h.1, h.2.trans_le hle⟩
  | true =>
    have hle : (2 : Int) ^ (m - 1) ≤ 2 ^ (n - 1) := by gcongr; decide
    exact ⟨(neg_le_neg hle).trans h.1, h.2.trans_le hle⟩

/-- Seven more bits hold what fits after a shift by 7. -/
theorem representable_add_seven_iff {n : Nat} (hn : 1 ≤ n) {signed : Bool} {v : Int} :
    Representable (n + 7) signed v ↔ Representable n signed (v / 2 ^ 7) := by
  cases signed with
  | false =>
    rw [representable_unsigned_iff, representable_unsigned_iff, pow_add]
    omega
  | true =>
    rw [representable_signed_iff, representable_signed_iff, Nat.sub_add_comm hn, pow_add]
    omega

/-! ### The number a word stands for -/

theorem valueOf_emod (signed : Bool) (x : BitVec w) : valueOf signed x % 2 ^ w = x.toNat := by
  cases signed with
  | false => exact Int.emod_eq_of_lt (representable_valueOf false x).1 (representable_valueOf false x).2
  | true =>
    have hbmod : valueOf true x = (x.toNat : Int).bmod (2 ^ w) := BitVec.toInt_eq_toNat_bmod x
    have hlt : (x.toNat : Int) < (2 ^ w : Nat) := mod_cast x.isLt
    have hmod := Int.bmod_emod (x := x.toNat) (m := 2 ^ w)
    rw [Int.emod_eq_of_lt (Int.natCast_nonneg _) hlt] at hmod
    exact_mod_cast hbmod ▸ hmod

/-! ### One round of the encoder -/

/-- R115, R116: the right shift of either signedness divides, rounding toward minus infinity. -/
theorem valueOf_rsh (signed : Bool) (x : BitVec w) (n : Nat) :
    valueOf signed (rsh signed x n) = valueOf signed x / 2 ^ n := by
  cases signed with
  | false => simp [valueOf, rsh, shr, Nat.shiftRight_eq_div_pow]
  | true => simp [valueOf, rsh, sar, BitVec.toInt_sshiftRight, Int.shiftRight_eq_div_pow]

/-- R118: the low 7 bits are the remainder that the shift by 7 leaves. -/
theorem toNat_low7 (signed : Bool) (x : BitVec w) : ((low7 signed x).toNat : Int) = valueOf signed x % 2 ^ 7 := by
  rw [low7_eq]
  cases signed with
  | false => simp [valueOf]
  | true => simp [valueOf, BitVec.signExtend, Int.emod_nonneg]

/-- A value that fits 7 bits is kept whole. -/
theorem valueOf_low7 {signed : Bool} {x : BitVec w} (h : Representable 7 signed (valueOf signed x)) :
    valueOf signed (low7 signed x) = valueOf signed x := by
  have hmod : valueOf signed (low7 signed x) % 2 ^ 7 = valueOf signed x % 2 ^ 7 := by rw [valueOf_emod, toNat_low7]
  have hlow := representable_valueOf signed (low7 signed x)
  cases signed with
  | false =>
    rw [representable_unsigned_iff] at h hlow
    omega
  | true =>
    rw [representable_signed_iff] at h hlow
    omega

/-- Bit 6 of a payload is its sign (R86). -/
theorem getLsbD_six_iff {p : Payload} : p.getLsbD 6 = true ↔ 64 ≤ p.toNat := by
  revert p; decide

/-- R132 and R134: a byte is the last one exactly when its payload can hold the value that is left. -/
theorem isLast_iff_representable (hw : 1 ≤ w) {signed : Bool} {x : BitVec w} :
    isLast signed x = true ↔ Representable 7 signed (valueOf signed x) := by
  have hrest := valueOf_rsh signed x 7
  cases signed with
  | false =>
    have hzero : rsh false x 7 = 0#w ↔ valueOf false (rsh false x 7) = 0 := by simp [valueOf, ← BitVec.toNat_inj]
    have hnonneg : 0 ≤ valueOf false x := (representable_valueOf false x).1
    simp only [isLast, lastU, beq_iff_eq, Bool.false_eq_true, if_false, hzero, hrest, representable_unsigned_iff]
    omega
  | true =>
    have hzero : rsh true x 7 = 0#w ↔ valueOf true (rsh true x 7) = 0 := by simp [valueOf, ← BitVec.toInt_inj]
    have hones : rsh true x 7 = BitVec.allOnes w ↔ valueOf true (rsh true x 7) = -1 := by
      simp [valueOf, ← BitVec.toInt_inj, show 0 < w from hw]
    have hlow := toNat_low7 true x
    have hsign := getLsbD_six_iff (p := low7 true x)
    simp only [isLast, lastS, if_true, Bool.or_eq_true, Bool.and_eq_true, beq_iff_eq, Bool.not_eq_true', hzero, hones,
      hrest, ← Bool.not_eq_true, hsign, representable_signed_iff]
    omega

end Sys2Proof.Machine
end

section
/-!
PROOF. 30_encoding.md, sections 2 and 3: wire forms byte by byte and the integers they denote (R82, R85, R86).
-/

namespace Sys2Proof.Machine

/-! ### Wire forms -/

theorem isWireForm_singleton_iff {x : Byte} : isWireForm [x] = true ↔ contFlag x = false := by
  simp [isWireForm]

theorem isWireForm_cons_iff {x : Byte} {bs : List Byte} (h : bs ≠ []) :
    isWireForm (x :: bs) = true ↔ contFlag x = true ∧ isWireForm bs = true := by
  obtain ⟨y, rest, rfl⟩ := List.exists_cons_of_ne_nil h
  simp [isWireForm]

theorem ne_nil_of_isWireForm {bs : List Byte} (h : isWireForm bs = true) : bs ≠ [] := by
  rintro rfl
  exact absurd h (by decide)

/-! ### Readings -/

theorem signBit_singleton (x : Byte) : signBit [x] = (payload x).msb := (BitVec.msb_eq_getLsbD_last (payload x)).symm

theorem signBit_cons (x : Byte) {bs : List Byte} (h : bs ≠ []) : signBit (x :: bs) = signBit bs := by
  obtain ⟨y, rest, rfl⟩ := List.exists_cons_of_ne_nil h
  simp [signBit]

/-- The final byte denotes its payload, bit 6 being the sign of the signed reading. -/
theorem reading_singleton (signed : Bool) (x : Byte) : reading signed [x] = valueOf signed (payload x) := by
  cases signed with
  | false => simp [reading, unsignedReading, valueOf]
  | true =>
    cases hsign : (payload x).msb <;>
      simp [reading, signedReading, unsignedReading, signBit_singleton, valueOf, BitVec.toInt_eq_msb_cond, hsign]

/-- A byte before the final one adds its payload below the integer that the rest denotes. -/
theorem reading_cons (signed : Bool) (x : Byte) {bs : List Byte} (h : bs ≠ []) :
    reading signed (x :: bs) = (payload x).toNat + 2 ^ 7 * reading signed bs := by
  cases signed with
  | false => simp [reading, unsignedReading]
  | true =>
    simp only [reading, if_true, signedReading, unsignedReading, signBit_cons x h, List.length_cons]
    split
    · push_cast; ring
    · push_cast; ring

theorem reading_cons_ediv (signed : Bool) (x : Byte) {bs : List Byte} (h : bs ≠ []) :
    reading signed (x :: bs) / 2 ^ 7 = reading signed bs := by
  rw [reading_cons signed x h]; omega

theorem reading_cons_emod (signed : Bool) (x : Byte) (bs : List Byte) :
    reading signed (x :: bs) % 2 ^ 7 = (payload x).toNat := by
  obtain rfl | h := eq_or_ne bs []
  · rw [reading_singleton, valueOf_emod]
  · rw [reading_cons signed x h]; omega

/-- What `n` bytes denote fits `7n` bits. -/
theorem representable_reading (signed : Bool) {bs : List Byte} (h : bs ≠ []) :
    Representable (7 * bs.length) signed (reading signed bs) := by
  induction bs, h using List.recNeNil with
  | singleton x => exact reading_singleton signed x ▸ representable_valueOf signed (payload x)
  | cons x bs h ih =>
    have hlen : 1 ≤ bs.length := List.length_pos_iff.2 h
    rw [List.length_cons, Nat.mul_succ, representable_add_seven_iff (by omega), reading_cons_ediv signed x h]
    exact ih

/-- Wire forms of one length that denote one integer are the same bytes: the first payload is the remainder modulo `2^7`,
and the rest denotes the quotient. -/
theorem eq_of_reading_eq {signed : Bool} {as bs : List Byte} (has : isWireForm as = true) (hbs : isWireForm bs = true)
    (hlen : as.length = bs.length) (hread : reading signed as = reading signed bs) : as = bs := by
  induction as generalizing bs with
  | nil => exact (List.length_eq_zero_iff.1 hlen.symm).symm
  | cons a as ih =>
    obtain ⟨b, bs, rfl⟩ := List.exists_cons_of_ne_nil (ne_nil_of_isWireForm hbs)
    have hpayload : payload a = payload b := by
      have hmod : reading signed (a :: as) % 2 ^ 7 = reading signed (b :: bs) % 2 ^ 7 := by rw [hread]
      rw [reading_cons_emod, reading_cons_emod] at hmod
      exact BitVec.eq_of_toNat_eq (mod_cast hmod)
    have htail : as.length = bs.length := Nat.succ.inj hlen
    obtain rfl | hne := eq_or_ne as []
    · obtain rfl : bs = [] := List.length_eq_zero_iff.1 htail.symm
      rw [isWireForm_singleton_iff] at has hbs
      rw [byte_ext (has.trans hbs.symm) hpayload]
    · have hne' : bs ≠ [] := List.ne_nil_of_length_pos (htail ▸ List.length_pos_iff.2 hne)
      obtain ⟨haflag, has⟩ := (isWireForm_cons_iff hne).1 has
      obtain ⟨hbflag, hbs⟩ := (isWireForm_cons_iff hne').1 hbs
      have hrest : reading signed as = reading signed bs := by
        rw [← reading_cons_ediv signed a hne, hread, reading_cons_ediv signed b hne']
      rw [byte_ext (haflag.trans hbflag.symm) hpayload, ih has hbs htail hrest]

end Sys2Proof.Machine
end

section
/-!
PROOF. 30_encoding.md, section 4: the encoder emits the one shortest wire form of its value (R89).
-/

namespace Sys2Proof.Machine

variable {w : Nat}

/-! ### The recursion of R131 -/

/-- The recursion of 41_encode.md R131 as the spec writes it, with no bound on its rounds: `EncodesTo signed x bs` says that
it ends and gives `bs`. -/
inductive EncodesTo (signed : Bool) : BitVec w → List Byte → Prop where
  | last {x : BitVec w} (h : isLast signed x = true) : EncodesTo signed x [encByte signed x]
  | more {x : BitVec w} {bs : List Byte} (h : isLast signed x = false) (rest : EncodesTo signed (rsh signed x 7) bs) :
      EncodesTo signed x (encByte signed x :: bs)

theorem encFrom_encodesTo (hw : 1 ≤ w) {signed : Bool} (fuel : Nat) {x : BitVec w}
    (hx : Representable (7 * (fuel + 1)) signed (valueOf signed x)) :
    EncodesTo signed x (encFrom signed (fuel + 1) x) := by
  induction fuel generalizing x with
  | zero =>
    have hlast : isLast signed x = true := (isLast_iff_representable hw).2 hx
    simpa [encFrom, hlast] using EncodesTo.last hlast
  | succ fuel ih =>
    rw [encFrom]
    split
    case isTrue hlast => exact .last hlast
    case isFalse hlast =>
      rw [Nat.mul_succ, representable_add_seven_iff (by omega), ← valueOf_rsh] at hx
      exact .more (Bool.not_eq_true _ ▸ hlast) (ih hx)

/-- `N_ENC_MAX` rounds are enough (R139). -/
theorem enc_encodesTo (hw : 1 ≤ w) (signed : Bool) (x : BitVec w) : EncodesTo signed x (enc signed x) := by
  obtain ⟨fuel, hfuel⟩ : ∃ fuel, nEncMax w = fuel + 1 := Nat.exists_eq_succ_of_ne_zero (by unfold nEncMax; omega)
  have hfits : Representable (7 * (fuel + 1)) signed (valueOf signed x) :=
    (representable_valueOf signed x).mono (hfuel ▸ le_seven_mul_nEncMax w)
  rw [enc, hfuel]
  exact encFrom_encodesTo hw fuel hfits

/-! ### What the encoder emits -/

namespace EncodesTo

variable {signed : Bool} {x : BitVec w} {bs : List Byte}

theorem ne_nil (h : EncodesTo signed x bs) : bs ≠ [] := by
  cases h <;> exact List.cons_ne_nil _ _

theorem wireForm (h : EncodesTo signed x bs) : isWireForm bs = true := by
  induction h with
  | last hlast => simp [isWireForm_singleton_iff, hlast]
  | more hlast rest ih => simp [isWireForm_cons_iff rest.ne_nil, hlast, ih]

theorem reading_eq (hw : 1 ≤ w) (h : EncodesTo signed x bs) : reading signed bs = valueOf signed x := by
  induction h with
  | last hlast =>
    rw [reading_singleton, payload_encByte, valueOf_low7 ((isLast_iff_representable hw).1 hlast)]
  | more hlast rest ih =>
    rw [reading_cons signed _ rest.ne_nil, payload_encByte, toNat_low7, ih, valueOf_rsh, Int.emod_add_mul_ediv]

/-- The length is the least number of payloads that hold the value. -/
theorem length_le_iff (hw : 1 ≤ w) (h : EncodesTo signed x bs) {n : Nat} (hn : 1 ≤ n) :
    bs.length ≤ n ↔ Representable (7 * n) signed (valueOf signed x) := by
  induction h generalizing n with
  | @last x hlast =>
    have hfits := ((isLast_iff_representable hw).1 hlast).mono (show 7 ≤ 7 * n by omega)
    exact iff_of_true hn hfits
  | @more x bs hlast rest ih =>
    have hpos : 1 ≤ bs.length := List.length_pos_iff.2 rest.ne_nil
    obtain rfl | hlt := hn.eq_or_lt
    · have hfits : ¬Representable 7 signed (valueOf signed x) := by
        rw [← isLast_iff_representable hw, hlast]; decide
      exact iff_of_false (by rw [List.length_cons]; omega) hfits
    · obtain ⟨n, rfl⟩ := Nat.exists_eq_add_of_le' hn
      have hn' : 1 ≤ n := by omega
      rw [List.length_cons, Nat.add_le_add_iff_right, ih hn', valueOf_rsh, Nat.mul_succ,
        representable_add_seven_iff (by omega)]

end EncodesTo

/-- Settles O56: a wire form of the value fits it into its own payloads, so it is no shorter than what the encoder emits, and
one of that length denotes the same integer with the same number of bytes. -/
theorem encodeIsCanonical : Obligations.EncodeIsCanonical := by
  intro w hw signed x
  have henc := enc_encodesTo hw signed x
  refine ⟨fun bs hbs hread => ⟨?_, fun hlen => ?_⟩, fun n hn => henc.length_le_iff hw hn⟩
  · have hne := ne_nil_of_isWireForm hbs
    rw [henc.length_le_iff hw (List.length_pos_iff.2 hne), ← hread]
    exact representable_reading signed hne
  · exact eq_of_reading_eq hbs henc.wireForm hlen (hread.trans (henc.reading_eq hw).symm)

end Sys2Proof.Machine
end

section
/-!
PROOF. 40_numeric_primitives.md, shifts: the left shift (R114) and the two right shifts (R115, R116) bit by bit and in numbers.
-/

namespace Sys2Proof.Machine

variable {w : Nat}

/-! ### The left shift -/

/-- A word of `k` bits shifted left within the width loses none of them. -/
theorem toNat_shiftLeft_of_room {a : BitVec w} {k n : Nat} (ha : a.toNat < 2 ^ k) (hroom : k + n ≤ w) :
    (a <<< n).toNat = a.toNat * 2 ^ n := by
  have hlt : a.toNat * 2 ^ n < 2 ^ w := calc
    a.toNat * 2 ^ n < 2 ^ k * 2 ^ n := Nat.mul_lt_mul_of_pos_right ha (Nat.two_pow_pos n)
    _ = 2 ^ (k + n) := (pow_add 2 k n).symm
    _ ≤ 2 ^ w := Nat.pow_le_pow_right two_pos hroom
  rw [BitVec.toNat_shiftLeft, Nat.shiftLeft_eq, Nat.mod_eq_of_lt hlt]

theorem toNat_zextPayload_of_le (hw : 7 ≤ w) (p : Payload) : (zextPayload w p).toNat = p.toNat :=
  BitVec.toNat_setWidth_of_le hw

theorem toNat_zextBoundary (p : Payload) : (zextBoundary w p).toNat = (p.setWidth (boundaryBits w)).toNat :=
  BitVec.toNat_setWidth_of_le (Nat.sub_le w (maxShift w))

/-- Settles O7: the two branches of `shl`; below the boundary there is room for 7 bits, and at it for `K`. -/
theorem leftShiftIsPartial : Obligations.LeftShiftIsPartial := by
  intro w a n
  refine ⟨shl_of_le, fun hn => ⟨a <<< n, shl_of_lt hn, fun i hi => ?_, ?_⟩, fun p h7 hn => ?_, fun p hk => ?_⟩
  · rw [BitVec.getLsbD_shiftLeft]
    by_cases hni : n ≤ i <;> simp [hi, hni, Nat.lt_of_not_le]
  · rw [BitVec.toNat_shiftLeft, Nat.shiftLeft_eq]
  · have hroom : 7 + n ≤ w := by have := add_seven_le_maxShift h7 hn; have := maxShift_le w; omega
    have hp := toNat_zextPayload_of_le (show 7 ≤ w by omega) p
    refine ⟨_, shl_of_lt (by omega), ?_⟩
    rw [toNat_shiftLeft_of_room (hp ▸ p.isLt) hroom, hp]
  · have hroom := maxShift_add_boundaryBits w
    have hp := toNat_zextBoundary (w := w) p
    refine ⟨_, shl_of_lt (by omega), ?_⟩
    rw [toNat_shiftLeft_of_room (hp ▸ (p.setWidth (boundaryBits w)).isLt) (by omega), hp]

/-! ### The right shifts -/

theorem getLsbD_shr (a : BitVec w) (n i : Nat) :
    (shr a n).getLsbD i = if i + n < w then a.getLsbD (i + n) else false := by
  rw [shr, BitVec.getLsbD_ushiftRight, Nat.add_comm n i]
  split
  next => rfl
  next h => exact BitVec.getLsbD_of_ge a _ (Nat.le_of_not_lt h)

theorem toNat_shr (a : BitVec w) (n : Nat) : (shr a n).toNat = a.toNat / 2 ^ n := by
  rw [shr, BitVec.toNat_ushiftRight, Nat.shiftRight_eq_div_pow]

/-- Settles O8: a bit that comes from beyond the width is 0, and the number is a quotient in `Nat`. -/
theorem logicalRightShift : Obligations.LogicalRightShift :=
  fun _ a n => ⟨fun i _ => getLsbD_shr a n i, toNat_shr a n⟩

theorem getLsbD_sar (a : BitVec w) (n : Nat) {i : Nat} (hi : i < w) :
    (sar a n).getLsbD i = if i + n < w then a.getLsbD (i + n) else a.msb := by
  rw [sar, BitVec.getLsbD_sshiftRight, Nat.add_comm n i]
  simp [Nat.not_le.2 hi]

theorem toInt_sar (a : BitVec w) (n : Nat) : (sar a n).toInt = a.toInt / 2 ^ n := valueOf_rsh true a n

/-- A shift by the width or more leaves the sign alone. -/
theorem sar_of_le {a : BitVec w} {n : Nat} (h : w ≤ n) : sar a n = if a.msb then BitVec.allOnes w else 0#w := by
  refine BitVec.eq_of_getLsbD_eq fun i hi => ?_
  rw [getLsbD_sar a n hi, if_neg (by omega)]
  cases a.msb <;> simp [hi]

theorem iterate_sar (a : BitVec w) (n k : Nat) : (fun x => sar x n)^[k] a = sar a (n * k) := by
  induction k with
  | zero => simp [sar]
  | succ k ih => rw [Function.iterate_succ_apply', ih, Nat.mul_succ]; exact BitVec.sshiftRight_add.symm

theorem sar_allOnes (w n : Nat) : sar (BitVec.allOnes w) n = BitVec.allOnes w := by
  rw [← BitVec.not_zero, sar, ← BitVec.not_sshiftRight, BitVec.zero_sshiftRight]

/-- Settles O9: `k` shifts by 7 are one by `7 * k`, and `7 * N_ENC_MAX` is the width or more. -/
theorem arithmeticRightShift : Obligations.ArithmeticRightShift := by
  intro w a
  refine ⟨fun n => ⟨fun i hi => getLsbD_sar a n hi, toInt_sar a n⟩, BitVec.zero_sshiftRight, sar_allOnes w 7,
    fun k hk => ?_⟩
  have hwidth : w ≤ 7 * k := (le_seven_mul_nEncMax w).trans (Nat.mul_le_mul_left 7 hk)
  exact (iterate_sar a 7 k).trans (sar_of_le hwidth)

end Sys2Proof.Machine
end

section
/-!
PROOF. 40_numeric_primitives.md, conversions: to a byte (R118) and from a payload (R119).
-/

namespace Sys2Proof.Machine

variable {w : Nat}

theorem getLsbD_trunc8 (signed : Bool) (a : BitVec w) {i : Nat} (hi : i < 8) :
    (trunc8 signed a).getLsbD i = if i < w then a.getLsbD i else (signed && a.msb) := by
  cases signed with
  | true =>
    rw [trunc8, if_pos rfl, BitVec.getLsbD_signExtend]
    simp [hi]
  | false =>
    by_cases hw : i < w
    · simp [trunc8, hi, hw]
    · simp [trunc8, hi, hw, BitVec.getLsbD_of_ge a i (Nat.le_of_not_lt hw)]

/-- The low 7 bits of a value are the payload of its byte. -/
theorem low7_eq_payload (signed : Bool) (a : BitVec w) : low7 signed a = payload (trunc8 signed a) := rfl

/-- Dropping the flag of a byte is the mask `0x7F`. -/
theorem setWidth_payload (x : Byte) : (payload x).setWidth 8 = x &&& 0x7F#8 := by
  revert x; decide

/-- Settles O10: bits 0 to 6 of the byte are its payload. -/
theorem byteConversions : Obligations.ByteConversions := by
  intro w signed a p
  refine ⟨fun i hi => getLsbD_trunc8 signed a hi, fun i hi => ?_, setWidth_payload (trunc8 signed a),
    BitVec.toNat_setWidth w p, fun hw => toNat_zextPayload_of_le hw p⟩
  rw [low7_eq_payload, getLsbD_payload hi, getLsbD_trunc8 signed a (by omega)]

end Sys2Proof.Machine
end

section
/-!
PROOF. 10_state.md R29 and 42_decode.md R178: with the bit offset in its range an edge without reset answers a next
state that keeps it there, and what it does on the encoder's side is the edge of `ENC` alone.
-/

namespace Sys2Proof.Machine

variable {w : Nat}

/-! ### The bit offset of the decoder -/

/-- The offset of 10_state.md R29: a multiple of 7 up to `MAX_SHIFT`. -/
structure OffsetInRange (d : DecUnit w) : Prop where
  mod_seven : d.off.toNat % 7 = 0
  le_maxShift : d.off.toNat ≤ maxShift w

theorem bounds_of_supportedWidth (h : supportedWidth w = true) : 1 ≤ w ∧ w ≤ 128 := by
  simpa [supportedWidth] using h

/-- Below the boundary the offset advances by one payload, and stays a byte (R23). -/
theorem OffsetInRange.add_seven (hw : w ≤ 128) {d e : DecUnit w} (h : OffsetInRange d) (hlt : d.off.toNat < maxShift w)
    (he : e.off = d.off + 7#8) : OffsetInRange e := by
  have hroom := add_seven_le_maxShift h.mod_seven hlt
  have hwidth := maxShift_le w
  have hoff : e.off.toNat = d.off.toNat + 7 := by
    rw [he, BitVec.toNat_add, BitVec.toNat_ofNat]; omega
  have hmod := h.mod_seven
  exact ⟨by omega, by omega⟩

theorem lt_maxShift_of_absorbCont_eq_more {p : Payload} {acc acc1 : BitVec w} {off : Nat} (hle : off ≤ maxShift w)
    (h : absorbCont p acc off = .more acc1) : off < maxShift w := by
  refine hle.lt_of_ne ?_
  rintro rfl
  simp [absorbCont_boundary] at h

theorem absorbFinal_ne_more {signed : Bool} {p : Payload} {acc acc1 : BitVec w} {off : Nat} (hle : off ≤ maxShift w) :
    absorbFinal signed p acc off ≠ .more acc1 := by
  obtain hlt | rfl := hle.lt_or_eq
  · simp [absorbFinal_below hlt]
  · rw [absorbFinal_boundary]
    split <;> simp

theorem readByte_offsetInRange (hw : w ≤ 128) {x : Byte} {a : Absorbed w} {b c : Block w} (hoff : OffsetInRange b.dec)
    (hmore : ∀ acc, a = .more acc → b.dec.off.toNat < maxShift w) (h : readByte x a b = .next c) :
    OffsetInRange c.dec := by
  obtain ⟨-, h⟩ | ⟨-, rfl⟩ := readByte_eq_next.1 h
  · obtain ⟨acc, ha, rfl⟩ | ⟨_, -, rfl⟩ | ⟨-, rfl⟩ := applyAbsorbed_eq_next.1 h
    · exact hoff.add_seven hw (hmore acc ha) rfl
    · exact ⟨hoff.mod_seven, hoff.le_maxShift⟩
    · exact ⟨hoff.mod_seven, hoff.le_maxShift⟩
  · exact hoff

theorem decEdge_offsetInRange (hw : w ≤ 128) {signed : Bool} {b c : Block w} (hoff : OffsetInRange b.dec)
    (h : decEdge signed b = .next c) : OffsetInRange c.dec := by
  obtain ⟨-, -, hedge⟩ | ⟨-, -, -, hedge⟩ | ⟨-, -, -, hedge⟩ | ⟨-, hedge⟩ | ⟨-, -, hedge⟩ := decEdge_cases signed b <;>
    rw [hedge] at h
  case inl => cases h; exact ⟨hoff.mod_seven, hoff.le_maxShift⟩
  case inr.inl =>
    exact readByte_offsetInRange hw hoff (fun _ => lt_maxShift_of_absorbCont_eq_more hoff.le_maxShift) h
  case inr.inr.inl =>
    exact readByte_offsetInRange hw hoff (fun _ hmore => absurd hmore (absorbFinal_ne_more hoff.le_maxShift)) h
  case inr.inr.inr.inl => cases h; exact ⟨rfl, Nat.zero_le _⟩
  case inr.inr.inr.inr => cases h; exact hoff

/-! ### What the decoder leaves alone -/

/-- The blocks agree in all that unit `DEC` does not own. -/
structure SameButDec (b c : Block w) : Prop where
  enc : c.enc = b.enc
  ports : c.ports = b.ports
  agenda : c.agenda = b.agenda
  sink : c.sink = b.sink
  encResults : c.encResults = b.encResults
  draw : c.draw = b.draw

theorem readByte_sameButDec {x : Byte} {a : Absorbed w} {b c : Block w} (h : readByte x a b = .next c) :
    SameButDec b c := by
  obtain ⟨-, h⟩ | ⟨-, rfl⟩ := readByte_eq_next.1 h
  · obtain ⟨_, -, rfl⟩ | ⟨_, -, rfl⟩ | ⟨-, rfl⟩ := applyAbsorbed_eq_next.1 h <;> exact ⟨rfl, rfl, rfl, rfl, rfl, rfl⟩
  · exact ⟨rfl, rfl, rfl, rfl, rfl, rfl⟩

theorem decEdge_sameButDec {signed : Bool} {b c : Block w} (h : decEdge signed b = .next c) : SameButDec b c := by
  obtain ⟨-, -, hedge⟩ | ⟨-, -, -, hedge⟩ | ⟨-, -, -, hedge⟩ | ⟨-, hedge⟩ | ⟨-, -, hedge⟩ := decEdge_cases signed b <;>
    rw [hedge] at h
  case inl | inr.inr.inr.inl | inr.inr.inr.inr => cases h; exact ⟨rfl, rfl, rfl, rfl, rfl, rfl⟩
  case inr.inl | inr.inr.inl => exact readByte_sameButDec h

/-! ### One edge without reset -/

/-- The step answers, keeps the offset in range, and is the edge of `ENC` in all that `DEC` does not own. -/
theorem step_answers (hw : w ≤ 128) (signed : Bool) {b : Block w} (hoff : OffsetInRange b.dec)
    (hrst : (nextPorts b).rst = false) :
    ∃ c, step ⟨w, signed, b⟩ = .next ⟨w, signed, c⟩ ∧ OffsetInRange c.dec ∧
      SameButDec (encEdge signed (samplePorts b)) c := by
  have hoff' : OffsetInRange (encEdge signed (samplePorts b)).dec := by rw [encEdge_dec]; exact hoff
  obtain ⟨c, hedge⟩ := decEdge_answers signed hoff'.le_maxShift
  refine ⟨c, ?_, decEdge_offsetInRange hw hoff' hedge, decEdge_sameButDec hedge⟩
  rw [step_eq, hrst, if_neg Bool.false_ne_true, hedge]
  rfl

/-- Edges one after another, cut anywhere. -/
theorem run_add (m n : Nat) (s : State) : run (m + n) s = andThen (run m s) (run n) := by
  induction m generalizing s with
  | zero => rw [Nat.zero_add]; rfl
  | succ m ih =>
    rw [Nat.add_right_comm]
    simp only [run]
    cases step s with
    | next t => exact ih t
    | fault e => rfl
    | refused r => rfl

end Sys2Proof.Machine
end

section
/-!
PROOF. 41_encode.md, section 4: the steps of unit `ENC` (R140 to R143), each at the edge of its transfer.
-/

namespace Sys2Proof.Machine

variable {w : Nat}

/-! ### The edge of `ENC` in each state -/

theorem encEdge_of_accept (signed : Bool) {b : Block w} (hrst : b.ports.rst = false)
    (hvalid : b.ports.encInValid = true) (hidle : b.enc.state = .idle) :
    encEdge signed b = encAccept b.ports.encInValue b := by
  simp [encEdge, encInTransfer, hrst, hvalid, hidle]

theorem encEdge_of_write (signed : Bool) {b : Block w} (hrst : b.ports.rst = false)
    (hready : b.ports.encSnkReady = true) (hemit : b.enc.state = .emit) : encEdge signed b = encWrite signed b := by
  simp [encEdge, encInTransfer, encSnkTransfer, hrst, hready, hemit]

theorem encEdge_of_result (signed : Bool) {b : Block w} (hrst : b.ports.rst = false)
    (hready : b.ports.encResReady = true) (hdone : b.enc.state = .done) : encEdge signed b = giveResult .enc b := by
  simp [encEdge, encInTransfer, encSnkTransfer, encResTransfer, hrst, hready, hdone]

/-- Without a transfer on the channel of its state the unit waits (20_memory.md R56). -/
theorem encEdge_of_wait (signed : Bool) {b : Block w} (hidle : b.enc.state = .idle → b.ports.encInValid = false)
    (hemit : b.enc.state = .emit → b.ports.encSnkReady = false)
    (hdone : b.enc.state = .done → b.ports.encResReady = false) : encEdge signed b = b := by
  cases hstate : b.enc.state with
  | idle => simp [encEdge, encInTransfer, encSnkTransfer, encResTransfer, hstate, hidle hstate]
  | emit => simp [encEdge, encInTransfer, encSnkTransfer, encResTransfer, hstate, hemit hstate]
  | done => simp [encEdge, encInTransfer, encSnkTransfer, encResTransfer, hstate, hdone hstate]

/-- A write that the sink takes. -/
theorem encWrite_of_ok (signed : Bool) {b : Block w} (herr : b.ports.encSnkErr = false) :
    encWrite signed b =
      { b with enc := encAdvance signed b.enc, sink := b.sink ++ [encByte signed b.enc.val] } :=
  ((encWrite_cases signed b).resolve_right (by simp [herr])).2

@[simp] theorem encWrite_agenda (signed : Bool) (b : Block w) : (encWrite signed b).agenda = b.agenda := by
  obtain ⟨-, hwrite⟩ | ⟨-, hwrite⟩ := encWrite_cases signed b <;> simp [hwrite]

@[simp] theorem encEdge_agenda (signed : Bool) (b : Block w) : (encEdge signed b).agenda = b.agenda := by
  obtain ⟨-, hedge⟩ | ⟨-, hedge⟩ | ⟨-, hedge⟩ | ⟨-, -, -, hedge⟩ := encEdge_cases signed b <;> simp [hedge]

/-- `ENC.U` and `ENC.S`, each in its own instance, are the edge of the unit. -/
theorem exec_enc_eq_next {s : State} {c : Block s.width} (h : encEdge s.signed s.block = c) :
    (s.signed = false → exec .encU s = .next (s.withBlock c)) ∧
    (s.signed = true → exec .encS s = .next (s.withBlock c)) := by
  subst h
  have hexec := exec_encOperation s
  constructor
  · intro hs
    rwa [show s.encOperation = .encU by simp [State.encOperation, hs]] at hexec
  · intro hs
    rwa [show s.encOperation = .encS by simp [State.encOperation, hs]] at hexec

/-- Settles O12: in `E_IDLE` the edge is `encAccept`, and `enc_in_ready` is the test for that state. -/
theorem encAcceptTakesTheValue : Obligations.EncAcceptTakesTheValue :=
  ⟨fun s hrst hvalid hidle => exec_enc_eq_next (encEdge_of_accept s.signed hrst hvalid hidle), fun _ => beq_iff_eq⟩

/-- What `ENC` delivers (00_scope.md R13): its status is never `ST_INVALID_DATA`. -/
theorem resultOf_of_ne_invalidData {α : Type} {st : Status} (h : st ≠ .invalidData) (a : α) :
    resultOf st a = if st = .ok then .ok a else .ioError := by
  cases st with
  | ok => rfl
  | ioError => rfl
  | invalidData => exact absurd rfl h

/-- Settles O16: in `E_DONE` the edge is `giveResult`, and the outputs carry the status and the count. -/
theorem encResultIsDelivered : Obligations.EncResultIsDelivered := by
  intro s hrst hready hdone hstatus r t
  have hedge : encEdge s.signed s.block = { s.block with
      enc := { s.block.enc with state := .idle }, encResults := s.block.encResults ++ [r] } := by
    rw [encEdge_of_result s.signed hrst hready hdone, giveResult, resultOf_of_ne_invalidData hstatus]
  obtain ⟨hU, hS⟩ := exec_enc_eq_next hedge
  exact ⟨hU, hS, outputs_encResStatus hdone, outputs_encResCount hdone⟩

end Sys2Proof.Machine
end

section
/-!
PROOF. 41_encode.md R135: a whole encode, edge by edge, and the count that it delivers.
-/

namespace Sys2Proof.Machine

variable {w : Nat} {signed : Bool}

/-! ### The bytes still to be written -/

/-- What is left of the operation in the registers of `ENC`: in `E_EMIT` the encoding of `e_val`, in `E_DONE` with
`ST_OK` nothing. -/
inductive EncOwes (signed : Bool) (e : EncUnit w) : List Byte → Prop where
  | emit {bs : List Byte} (hemit : e.state = .emit) (hbs : EncodesTo signed e.val bs) : EncOwes signed e bs
  | done (hdone : e.state = .done) (hok : e.status = .ok) : EncOwes signed e []

theorem EncOwes.state_of_nil {e : EncUnit w} (h : EncOwes signed e []) : e.state = .done ∧ e.status = .ok := by
  cases h with
  | emit _ hbs => exact absurd rfl hbs.ne_nil
  | done hdone hok => exact ⟨hdone, hok⟩

/-- From `b` to `c` the unit, owing `todo`, has written the first `k` bytes of it, or all if there are fewer. -/
structure EncWrote (signed : Bool) (todo : List Byte) (k : Nat) (b c : Block w) : Prop where
  owes : EncOwes signed c.enc (todo.drop k)
  sink : c.sink = b.sink ++ todo.take k
  cnt : c.enc.cnt = b.enc.cnt + BitVec.ofNat 5 (todo.take k).length
  encResults : c.encResults = b.encResults

namespace EncWrote

variable {todo : List Byte} {i j k : Nat} {b c d : Block w}

theorem refl (h : EncOwes signed b.enc todo) : EncWrote signed todo 0 b b := ⟨h, by simp, by simp, rfl⟩

theorem trans (hbc : EncWrote signed todo i b c) (hcd : EncWrote signed (todo.drop i) j c d) :
    EncWrote signed todo (i + j) b d where
  owes := by simpa only [List.drop_drop] using hcd.owes
  sink := by rw [hcd.sink, hbc.sink, List.take_add, List.append_assoc]
  cnt := by rw [hcd.cnt, hbc.cnt, List.take_add, List.length_append, BitVec.ofNat_add, BitVec.add_assoc]
  encResults := hcd.encResults.trans hbc.encResults

theorem congr_right (h : EncWrote signed todo k b c) (hcd : SameButDec c d) : EncWrote signed todo k b d :=
  ⟨hcd.enc ▸ h.owes, hcd.sink.trans h.sink, hcd.enc ▸ h.cnt, hcd.encResults.trans h.encResults⟩

/-- Sampling the ports moves nothing. -/
theorem of_samplePorts (h : EncWrote signed todo k (samplePorts b) c) : EncWrote signed todo k b c :=
  ⟨h.owes, h.sink, h.cnt, h.encResults⟩

end EncWrote

/-- R141: a byte that the sink takes is the first of those owed. -/
theorem encWrite_encWrote {todo : List Byte} {b : Block w} (herr : b.ports.encSnkErr = false)
    (hbs : EncodesTo signed b.enc.val todo) (hemit : b.enc.state = .emit) :
    EncWrote signed todo 1 b (encWrite signed b) := by
  rw [encWrite_of_ok signed herr]
  cases hbs with
  | last hlast =>
    have hadvance : encAdvance signed b.enc = { b.enc with cnt := b.enc.cnt + 1#5, status := .ok, state := .done } :=
      if_pos hlast
    exact ⟨hadvance ▸ .done rfl rfl, rfl, hadvance ▸ rfl, rfl⟩
  | more hlast hrest =>
    have hadvance : encAdvance signed b.enc = { b.enc with cnt := b.enc.cnt + 1#5, val := rsh signed b.enc.val 7 } := by
      rw [encAdvance, hlast]; rfl
    exact ⟨hadvance ▸ .emit hemit hrest, rfl, hadvance ▸ rfl, rfl⟩

/-- An edge at which no write fails and no result is taken: one byte more when the sink is ready. -/
theorem encEdge_encWrote {todo : List Byte} {b : Block w} (howes : EncOwes signed b.enc todo)
    (hrst : b.ports.rst = false) (herr : b.ports.encSnkErr = false) (hres : b.ports.encResReady = false) :
    EncWrote signed todo (if b.ports.encSnkReady then 1 else 0) b (encEdge signed b) := by
  cases howes with
  | emit hemit hbs =>
    split
    case isTrue hready =>
      rw [encEdge_of_write signed hrst hready hemit]
      exact encWrite_encWrote herr hbs hemit
    case isFalse hready =>
      rw [encEdge_of_wait signed (by simp [hemit]) (fun _ => Bool.eq_false_of_not_eq_true hready) (by simp [hemit])]
      exact .refl (.emit hemit hbs)
  | done hdone hok =>
    rw [encEdge_of_wait signed (by simp [hdone]) (by simp [hdone]) (by simp [hres])]
    exact ⟨by simpa using .done hdone hok, by simp, by simp, rfl⟩

/-! ### Runs -/

/-- Over edges at which no write fails and no result is taken, one byte is written at each edge of a ready sink, as long
as there are any. -/
theorem run_encWrote (hw : w ≤ 128) {todo : List Byte} {mid rest : List (PortIn w)} {b : Block w}
    (hoff : OffsetInRange b.dec) (howes : EncOwes signed b.enc todo) (hagenda : b.agenda = mid ++ rest)
    (hmid : ∀ p ∈ mid, p.rst = false ∧ p.encSnkErr = false ∧ p.encResReady = false) :
    ∃ c, run mid.length ⟨w, signed, b⟩ = .next ⟨w, signed, c⟩ ∧ OffsetInRange c.dec ∧ c.agenda = rest ∧
      EncWrote signed todo (sinkReadyEdges mid) b c := by
  induction mid generalizing b todo with
  | nil => exact ⟨b, rfl, hoff, hagenda, .refl howes⟩
  | cons p mid ih =>
    obtain ⟨⟨hrst, herr, hres⟩, hlater⟩ := List.forall_mem_cons.1 hmid
    obtain rfl : nextPorts b = p := nextPorts_of_cons b p _ hagenda
    obtain ⟨c, hstep, hoffc, hsame⟩ := step_answers hw signed hoff hrst
    have hedge := encEdge_encWrote (b := samplePorts b) howes hrst herr hres
    have hfirst := (hedge.congr_right hsame).of_samplePorts
    have hagendac : c.agenda = mid ++ rest := by
      rw [hsame.agenda, encEdge_agenda, samplePorts_agenda, hagenda]; rfl
    obtain ⟨d, hrun, hoffd, hagendad, hrest⟩ := ih hoffc hfirst.owes hagendac hlater
    refine ⟨d, ?_, hoffd, hagendad, ?_⟩
    · rw [List.length_cons, run, hstep, andThen_next, hrun]
    · rw [sinkReadyEdges, List.countP_cons, Nat.add_comm]
      exact hfirst.trans hrest

/-- 1 to `N_ENC_MAX` bytes (R139). -/
theorem length_enc_bounds (hw : 1 ≤ w) (signed : Bool) (x : BitVec w) :
    1 ≤ (enc signed x).length ∧ (enc signed x).length ≤ nEncMax w := by
  have henc := enc_encodesTo hw signed x
  have hmax : 1 ≤ nEncMax w := by unfold nEncMax; omega
  refine ⟨List.length_pos_iff.2 henc.ne_nil, (henc.length_le_iff hw hmax).2 ?_⟩
  exact (representable_valueOf signed x).mono (le_seven_mul_nEncMax w)

/-- The length fits `e_cnt`, `N_ENC_MAX` being at most 19. -/
theorem toNat_ofNat_length_enc (hw : supportedWidth w = true) (signed : Bool) (x : BitVec w) :
    (BitVec.ofNat 5 (enc signed x).length).toNat = (enc signed x).length := by
  obtain ⟨hpos, hle⟩ := bounds_of_supportedWidth hw
  have hmax : nEncMax w < 2 ^ 5 := by unfold nEncMax; omega
  exact Nat.mod_eq_of_lt ((length_enc_bounds hpos signed x).2.trans_lt hmax)

/-- An edge that offers a value, and edges at which no write fails and no result is taken: as many bytes of its encoding
are written as the sink was ready for. -/
theorem run_accept_encWrote (hw : supportedWidth w = true) {p : PortIn w} {mid rest : List (PortIn w)} {b : Block w}
    (hoff : OffsetInRange b.dec) (hidle : b.enc.state = .idle) (hagenda : b.agenda = p :: (mid ++ rest))
    (hrst : p.rst = false) (hvalid : p.encInValid = true)
    (hmid : ∀ q ∈ mid, q.rst = false ∧ q.encSnkErr = false ∧ q.encResReady = false) :
    ∃ c, run (1 + mid.length) ⟨w, signed, b⟩ = .next ⟨w, signed, c⟩ ∧ OffsetInRange c.dec ∧ c.agenda = rest ∧
      EncWrote signed (enc signed p.encInValue) (sinkReadyEdges mid) (encAccept p.encInValue b) c := by
  obtain ⟨hpos, hle⟩ := bounds_of_supportedWidth hw
  obtain rfl : nextPorts b = p := nextPorts_of_cons b p _ hagenda
  obtain ⟨c, hstep, hoffc, hsame⟩ := step_answers hle signed hoff hrst
  rw [encEdge_of_accept (b := samplePorts b) signed hrst hvalid hidle] at hsame
  have howes : EncOwes signed c.enc (enc signed (nextPorts b).encInValue) := by
    rw [hsame.enc]
    exact .emit rfl (enc_encodesTo hpos signed _)
  have hagendac : c.agenda = mid ++ rest := by
    rw [hsame.agenda, encAccept_agenda, samplePorts_agenda, hagenda]; rfl
  obtain ⟨d, hrun, hoffd, hagendad, hwrote⟩ := run_encWrote hle hoffc howes hagendac hmid
  refine ⟨d, ?_, hoffd, hagendad, hwrote.owes, ?_, ?_, ?_⟩
  · rw [run_add, run, hstep, andThen_next, run, andThen_next, hrun]
  · rw [hwrote.sink, hsame.sink]; rfl
  · rw [hwrote.cnt, hsame.enc]; rfl
  · rw [hwrote.encResults, hsame.encResults]; rfl

/-- Settles O52: after the edges between, nothing is owed, so the unit is in `E_DONE` with `ST_OK`, and the last edge is
`giveResult`. The count does not wrap. -/
theorem encodeDeliversCountAndBytes : Obligations.EncodeDeliversCountAndBytes := by
  rintro ⟨w, signed, b⟩ p0 p1 mid ⟨hsupported, -, hmod, hmax, -⟩ hidle hagenda hrst0 hvalid hmid hready hrst1 hres
  obtain ⟨hpos, hle⟩ := bounds_of_supportedWidth hsupported
  obtain ⟨c, hrun, hoff, hlast, hwrote⟩ :=
    run_accept_encWrote (signed := signed) hsupported ⟨hmod, hmax⟩ hidle hagenda hrst0 hvalid hmid
  obtain ⟨howes, hsink, hcnt, hresults⟩ := hwrote
  rw [List.take_of_length_le hready] at hsink hcnt
  rw [List.drop_of_length_le hready] at howes
  obtain rfl : nextPorts c = p1 := nextPorts_of_cons c p1 [] hlast
  obtain ⟨hdone, hok⟩ := howes.state_of_nil
  obtain ⟨d, hstep, -, hsame⟩ := step_answers hle signed hoff hrst1
  rw [encEdge_of_result (b := samplePorts c) signed hrst1 hres hdone] at hsame
  obtain ⟨hlen1, hlenMax⟩ := length_enc_bounds hpos signed p0.encInValue
  have hcount : c.enc.cnt.toNat = (enc signed p0.encInValue).length := by
    rw [hcnt, encAccept_enc, BitVec.zero_add, toNat_ofNat_length_enc hsupported]
  refine ⟨d, ?_, ?_, ?_, c.enc.cnt, ?_, hcount, hcount ▸ hlen1, hcount ▸ hlenMax⟩
  · rw [show mid.length + 2 = 1 + mid.length + 1 by omega, run_add, hrun, andThen_next, run, hstep]; rfl
  · rw [hsame.enc]; rfl
  · rw [hsame.sink]; exact hsink
  · rw [hsame.encResults, giveResult_enc_encResults, samplePorts_enc, hok, samplePorts_encResults, hresults]; rfl

end Sys2Proof.Machine
end

section
/-!
PROOF. 42_decode.md, section 3, in numbers: what one byte adds to the accumulated integer (R165, R170), and that a boundary
byte is legal exactly when the integer fits (R167, R171, R172).
-/

namespace Sys2Proof.Machine

variable {w : Nat}

/-! ### The fields of an integer -/

/-- Below a payload of `k` bits at bit `m` the low `m` bits are free. -/
theorem representable_add_two_pow_mul_iff {a m k : Nat} (ha : a < 2 ^ m) {signed : Bool} (hk : signed = true → 1 ≤ k)
    {v : Int} :
    Representable (m + k) signed (a + 2 ^ m * v) ↔ Representable k signed v := by
  have hdiv : ((a : Int) + 2 ^ m * v) / 2 ^ m = v := by
    rw [Int.add_mul_ediv_left _ _ (by positivity), Int.ediv_eq_zero_of_lt (by positivity) (mod_cast ha), zero_add]
  have hbelow (u : Int) : (a : Int) + 2 ^ m * v < 2 ^ m * u ↔ v < u := by
    rw [mul_comm _ u, ← Int.ediv_lt_iff_lt_mul (by positivity), hdiv]
  have habove (u : Int) : 2 ^ m * u ≤ (a : Int) + 2 ^ m * v ↔ u ≤ v := by
    rw [mul_comm _ u, ← Int.le_ediv_iff_mul_le (by positivity), hdiv]
  cases signed with
  | false =>
    rw [representable_unsigned_iff, representable_unsigned_iff, pow_add, hbelow, ← habove 0, mul_zero]
  | true =>
    rw [representable_signed_iff, representable_signed_iff, Nat.add_sub_assoc (hk rfl), pow_add, ← mul_neg, hbelow,
      habove]

/-- A word stands for the only integer of its range that it is congruent to. -/
theorem valueOf_eq_of_modEq {signed : Bool} {x : BitVec w} {v : Int} (hw : 1 ≤ w) (hv : Representable w signed v)
    (hmod : (x.toNat : Int) ≡ v [ZMOD 2 ^ w]) : valueOf signed x = v := by
  have hx := representable_valueOf signed x
  have hdvd : (2 : Int) ^ w ∣ v - valueOf signed x := by
    rw [← valueOf_emod signed x] at hmod
    exact ((Int.mod_modEq _ _).symm.trans hmod).dvd
  have hsmall : |v - valueOf signed x| < 2 ^ w := by
    rw [abs_lt]
    cases signed with
    | false =>
      rw [representable_unsigned_iff] at hv hx
      omega
    | true =>
      have hhalf : (2 : Int) ^ w = 2 * 2 ^ (w - 1) := by rw [← pow_succ', Nat.sub_add_cancel hw]
      rw [representable_signed_iff] at hv hx
      omega
  have hzero := Int.eq_zero_of_abs_lt_dvd hdvd hsmall
  omega

theorem valueOf_inj {signed : Bool} {x y : BitVec w} : valueOf signed x = valueOf signed y ↔ x = y := by
  cases signed with
  | false => simp [valueOf, BitVec.toNat_inj]
  | true => simp [valueOf, BitVec.toInt_inj]

theorem toNat_modEq_valueOf (signed : Bool) (x : BitVec w) : (x.toNat : Int) ≡ valueOf signed x [ZMOD 2 ^ w] := by
  rw [← valueOf_emod signed x]
  exact Int.mod_modEq _ _

/-! ### The merged accumulator -/

/-- A field merged above an accumulator that ends below it is added, as far as the width holds it (R114). -/
theorem toNat_or_shiftLeft {acc a : BitVec w} {n : Nat} (hacc : acc.toNat < 2 ^ n) (hn : n ≤ w) :
    (acc ||| a <<< n).toNat = acc.toNat + 2 ^ n * (a.toNat % 2 ^ (w - n)) := by
  have hshift : (a <<< n).toNat = 2 ^ n * (a.toNat % 2 ^ (w - n)) := by
    rw [BitVec.toNat_shiftLeft, Nat.shiftLeft_eq, mul_comm, ← Nat.mul_mod_mul_left, ← pow_add, Nat.add_sub_cancel' hn]
  rw [BitVec.toNat_or, hshift, Nat.or_comm, ← Nat.two_pow_add_eq_or_of_lt hacc, add_comm]

theorem toNat_or_shiftLeft_modEq {acc a : BitVec w} {n : Nat} (hacc : acc.toNat < 2 ^ n) (hn : n ≤ w) :
    ((acc ||| a <<< n).toNat : Int) ≡ acc.toNat + 2 ^ n * a.toNat [ZMOD 2 ^ w] := by
  have hmod : (2 : Int) ^ n * (a.toNat % 2 ^ (w - n) : Int) ≡ 2 ^ n * a.toNat [ZMOD 2 ^ n * 2 ^ (w - n)] :=
    (Int.mod_modEq _ _).mul_left'
  rw [← pow_add, Nat.add_sub_cancel' hn] at hmod
  rw [toNat_or_shiftLeft hacc hn]
  push_cast
  exact hmod.add_left _

/-- R165: below the boundary the whole payload is added. -/
theorem toNat_or_zextPayload {acc : BitVec w} {off : Nat} (hacc : acc.toNat < 2 ^ off) (hroom : off + 7 ≤ w)
    (p : Payload) : (acc ||| zextPayload w p <<< off).toNat = acc.toNat + 2 ^ off * p.toNat := by
  have hp : p.toNat < 2 ^ (w - off) := BitVec.toNat_lt_twoPow_of_le (by omega)
  rw [toNat_or_shiftLeft hacc (by omega), toNat_zextPayload_of_le (by omega), Nat.mod_eq_of_lt hp]

theorem toNat_or_zextPayload_lt {acc : BitVec w} {off : Nat} (hacc : acc.toNat < 2 ^ off) (hroom : off + 7 ≤ w)
    (p : Payload) : (acc ||| zextPayload w p <<< off).toNat < 2 ^ (off + 7) := by
  have hp : 2 ^ off * (p.toNat + 1) ≤ 2 ^ off * 2 ^ 7 := Nat.mul_le_mul_left _ p.isLt
  rw [mul_add] at hp
  rw [toNat_or_zextPayload hacc hroom, pow_add]
  omega

/-! ### A final byte below the boundary -/

/-- What the accumulator becomes with a final byte below the boundary (R165, R170). -/
def endValue (signed : Bool) (p : Payload) (acc : BitVec w) (off : Nat) : BitVec w :=
  let acc1 := acc ||| zextPayload w p <<< off
  if needsSignFill w signed p off then acc1 ||| BitVec.allOnes w <<< (off + 7) else acc1

theorem absorbFinal_below_eq {signed : Bool} {p : Payload} {acc : BitVec w} {off : Nat} (h : off < maxShift w) :
    absorbFinal signed p acc off = .value (endValue signed p acc off) := absorbFinal_below h

theorem needsSignFill_iff {signed : Bool} {p : Payload} {off : Nat} :
    needsSignFill w signed p off = true ↔ signed = true ∧ p.msb = true ∧ off + 7 < w := by
  simp [needsSignFill, BitVec.msb_eq_getLsbD_last, and_assoc]

theorem valueOf_payload_of_sign {signed : Bool} {p : Payload} :
    valueOf signed p = if signed = true ∧ p.msb = true then (p.toNat : Int) - 2 ^ 7 else (p.toNat : Int) := by
  cases signed <;> simp [valueOf, BitVec.toInt_eq_msb_cond]

/-- R170: the sign fill, or its absence where it would lie above the value, makes no difference modulo `2^W`. -/
theorem endValue_modEq {signed : Bool} {p : Payload} {acc : BitVec w} {off : Nat} (hacc : acc.toNat < 2 ^ off)
    (hroom : off + 7 ≤ w) :
    ((endValue signed p acc off).toNat : Int) ≡ acc.toNat + 2 ^ off * valueOf signed p [ZMOD 2 ^ w] := by
  have hacc1 : ((acc ||| zextPayload w p <<< off).toNat : Int) = acc.toNat + 2 ^ off * p.toNat :=
    mod_cast toNat_or_zextPayload hacc hroom p
  unfold endValue
  split
  case isTrue hfill =>
    obtain ⟨hsigned, hsign, -⟩ := needsSignFill_iff.1 hfill
    have hones : ((BitVec.allOnes w).toNat : Int) ≡ -1 [ZMOD 2 ^ w] := by
      rw [BitVec.toNat_allOnes, Int.modEq_iff_dvd, Nat.cast_sub (Nat.one_le_two_pow)]
      exact ⟨-1, by push_cast; ring⟩
    calc ((acc ||| zextPayload w p <<< off ||| BitVec.allOnes w <<< (off + 7)).toNat : Int)
        ≡ acc.toNat + 2 ^ off * p.toNat + 2 ^ (off + 7) * (BitVec.allOnes w).toNat [ZMOD 2 ^ w] :=
          hacc1 ▸ toNat_or_shiftLeft_modEq (toNat_or_zextPayload_lt hacc hroom p) hroom
      _ ≡ acc.toNat + 2 ^ off * p.toNat + 2 ^ (off + 7) * -1 [ZMOD 2 ^ w] := (hones.mul_left _).add_left _
      _ = acc.toNat + 2 ^ off * valueOf signed p := by
          rw [valueOf_payload_of_sign, if_pos ⟨hsigned, hsign⟩]; ring
  case isFalse hfill =>
    rw [hacc1]
    by_cases hlt : off + 7 < w
    · have hsign : ¬(signed = true ∧ p.msb = true) := fun ⟨hs, hp⟩ => hfill (needsSignFill_iff.2 ⟨hs, hp, hlt⟩)
      rw [valueOf_payload_of_sign, if_neg hsign]
    · obtain rfl : w = off + 7 := by omega
      rw [pow_add]
      exact (toNat_modEq_valueOf signed p).mul_left'.add_left _

/-- R165, R170: the value of an operation that ends below the boundary. -/
theorem valueOf_endValue {signed : Bool} {p : Payload} {acc : BitVec w} {off : Nat} (hacc : acc.toNat < 2 ^ off)
    (hroom : off + 7 ≤ w) :
    valueOf signed (endValue signed p acc off) = acc.toNat + 2 ^ off * valueOf signed p := by
  have hfits : Representable (off + 7) signed (acc.toNat + 2 ^ off * valueOf signed p) :=
    (representable_add_two_pow_mul_iff hacc fun _ => by decide).2 (representable_valueOf signed p)
  exact valueOf_eq_of_modEq (by omega) (hfits.mono hroom) (endValue_modEq hacc hroom)

/-! ### A final byte at the boundary -/

theorem zextBoundary_eq_zero (h : boundaryBits w = 0) (p : Payload) : zextBoundary w p = 0#w := by
  rw [← BitVec.toNat_inj, toNat_zextBoundary, BitVec.toNat_setWidth, h, pow_zero, Nat.mod_one, BitVec.toNat_zero]

/-- R167, R171, R172: a legal boundary byte contributes its low `K` bits, which are none when `K = 0`. -/
theorem absorbFinal_boundary_eq {signed : Bool} {p : Payload} {acc : BitVec w} :
    absorbFinal signed p acc (maxShift w) =
      if legalLast signed p acc then .value (acc ||| zextBoundary w p <<< maxShift w) else .invalid := by
  rw [absorbFinal_boundary]
  by_cases hk : 1 ≤ boundaryBits w
  · rw [if_pos hk]
  · rw [if_neg hk, zextBoundary_eq_zero (by omega), BitVec.zero_shiftLeft, BitVec.or_zero]

theorem or_zextBoundary_modEq {signed : Bool} {p : Payload} {acc : BitVec w} (hacc : acc.toNat < 2 ^ maxShift w) :
    ((acc ||| zextBoundary w p <<< maxShift w).toNat : Int) ≡
      acc.toNat + 2 ^ maxShift w * valueOf signed p [ZMOD 2 ^ w] := by
  have hbits : ((zextBoundary w p).toNat : Int) ≡ valueOf signed p [ZMOD 2 ^ boundaryBits w] := by
    have hdvd : (2 : Int) ^ boundaryBits w ∣ 2 ^ 7 := pow_dvd_pow 2 ((boundaryBits_le w).trans (by decide))
    rw [toNat_zextBoundary, BitVec.toNat_setWidth]
    push_cast
    exact (Int.mod_modEq _ _).trans ((toNat_modEq_valueOf signed p).of_dvd hdvd)
  have hplaced := hbits.mul_left' (c := 2 ^ maxShift w)
  rw [← pow_add, maxShift_add_boundaryBits] at hplaced
  exact (toNat_or_shiftLeft_modEq hacc (maxShift_le w)).trans (hplaced.add_left _)

/-- R167: the number of payload bits that count is `K`. -/
theorem legalLastU_iff {p : Payload} : legalLastU w p = true ↔ p.toNat < 2 ^ boundaryBits w := by
  rw [legalLastU, decide_eq_true_eq, maxLastByte, Nat.le_sub_one_iff_lt (Nat.two_pow_pos _)]

theorem legalLastU_iff_representable {p : Payload} :
    legalLastU w p = true ↔ Representable (boundaryBits w) false p.toNat := by
  rw [legalLastU_iff, representable_unsigned_iff, and_iff_right (Int.natCast_nonneg _)]
  norm_cast

/-- R171 in numbers. -/
theorem legalLastS_iff {p : Payload} {acc : BitVec w} (hk : 1 ≤ boundaryBits w) :
    legalLastS p acc = true ↔
      p.toNat < 2 ^ (boundaryBits w - 1) ∨ 128 - 2 ^ (boundaryBits w - 1) ≤ p.toNat := by
  have hle := boundaryBits_le w
  have hk0 : boundaryBits w ≠ 0 := by omega
  have hp := p.isLt
  simp only [legalLastS, if_neg hk0, Bool.or_eq_true, beq_iff_eq, ← BitVec.toNat_inj, BitVec.extractLsb'_toNat,
    BitVec.toNat_ofNat, BitVec.toNat_allOnes, Nat.shiftRight_eq_div_pow]
  generalize boundaryBits w = k at *
  interval_cases k <;> omega

/-- R172: with `K = 0` the payload extends the sign that is there. -/
theorem legalLastS_iff_of_zero {p : Payload} {acc : BitVec w} (hk : boundaryBits w = 0) :
    legalLastS p acc = true ↔ (p = 0x00#7 ∧ acc.msb = false) ∨ (p = 0x7F#7 ∧ acc.msb = true) := by
  simp [legalLastS, hk]

/-- The numbers of R171 are the payloads whose signed reading fits `K` bits. -/
theorem legalLastS_iff_representable {p : Payload} {acc : BitVec w} (hk : 1 ≤ boundaryBits w) :
    legalLastS p acc = true ↔ Representable (boundaryBits w) true p.toInt := by
  have hle := boundaryBits_le w
  have hp := p.isLt
  rw [legalLastS_iff hk, representable_signed_iff, BitVec.toInt_eq_toNat_cond]
  generalize boundaryBits w = k at *
  interval_cases k <;> split <;> omega

/-- R172 in numbers: an accumulator of all `W` bits is extended by 0 or by -1, as its own sign says. -/
theorem legalLastS_iff_representable_of_zero (hw : 1 ≤ w) {p : Payload} {acc : BitVec w} (hk : boundaryBits w = 0) :
    legalLastS p acc = true ↔ Representable w true (acc.toNat + 2 ^ w * p.toInt) := by
  have hacc : (acc.toNat : Int) < 2 ^ w := mod_cast acc.isLt
  have hhalf : (2 : Int) ^ w = 2 * 2 ^ (w - 1) := by rw [← pow_succ', Nat.sub_add_cancel hw]
  have hmsb : acc.msb = true ↔ (2 : Int) ^ (w - 1) ≤ acc.toNat := by
    rw [BitVec.msb_eq_decide, decide_eq_true_eq]; exact_mod_cast Iff.rfl
  have hzero : p = 0x00#7 ↔ p.toInt = 0 := by rw [← BitVec.toInt_inj]; rfl
  have hones : p = 0x7F#7 ↔ p.toInt = -1 := by rw [← BitVec.toInt_inj]; rfl
  rw [legalLastS_iff_of_zero hk, ← Bool.not_eq_true, hmsb, hzero, hones, representable_signed_iff]
  constructor
  · rintro (⟨hp, hsign⟩ | ⟨hp, hsign⟩) <;> rw [hp] <;> omega
  · rintro ⟨hlow, hhigh⟩
    have hup : p.toInt < 1 := by nlinarith
    have hdown : -2 < p.toInt := by nlinarith
    obtain hp | hp : p.toInt = 0 ∨ p.toInt = -1 := by omega
    · rw [hp] at hhigh ⊢; omega
    · rw [hp] at hlow ⊢; omega

/-- R167, R171, R172: the boundary byte is legal exactly when the integer fits the width. -/
theorem legalLast_iff_representable (hw : 1 ≤ w) {signed : Bool} {p : Payload} {acc : BitVec w}
    (hacc : acc.toNat < 2 ^ maxShift w) :
    legalLast signed p acc = true ↔ Representable w signed (acc.toNat + 2 ^ maxShift w * valueOf signed p) := by
  have hwidth := maxShift_add_boundaryBits w
  have hfits := representable_add_two_pow_mul_iff (k := boundaryBits w) hacc (signed := signed) (v := valueOf signed p)
  rw [hwidth] at hfits
  cases signed with
  | false =>
    rw [hfits fun h => absurd h Bool.false_ne_true]
    exact legalLastU_iff_representable
  | true =>
    obtain hk | hk := Nat.eq_zero_or_pos (boundaryBits w)
    · rw [show maxShift w = w by omega]
      exact legalLastS_iff_representable_of_zero hw hk
    · rw [hfits fun _ => hk]
      exact legalLastS_iff_representable hk

end Sys2Proof.Machine
end

section
/-!
PROOF. 42_decode.md, section 4: what a decode returns on a wire form, in numbers (R174), the round-trip law (R176) and the
overflow-rejection law (R177).
-/

namespace Sys2Proof.Machine

variable {w : Nat} {signed : Bool}

/-! ### One round of the loop of `dec` -/

theorem absorb_of_contFlag {x : Byte} (h : contFlag x = true) (acc : BitVec w) (off : Nat) :
    absorb signed x acc off = absorbCont (payload x) acc off := if_pos h

theorem absorb_of_not_contFlag {x : Byte} (h : contFlag x = false) (acc : BitVec w) (off : Nat) :
    absorb signed x acc off = absorbFinal signed (payload x) acc off := if_neg (by simp [h])

variable {x : Byte} {acc : BitVec w} {off : Nat}

theorem decFrom_of_more {acc1 : BitVec w} (h : absorb signed x acc off = .more acc1) (bs : List Byte)
    (rest : List SrcAnswer) (n : Nat) :
    decFrom signed (answers (x :: bs) ++ rest) acc off n =
      decFrom signed (answers bs ++ rest) acc1 (off + 7) (n + 1) := by
  simp [answers, decFrom, h]

theorem decFrom_of_value {v : BitVec w} (h : absorb signed x acc off = .value v) (bs : List Byte)
    (rest : List SrcAnswer) (n : Nat) :
    decFrom signed (answers (x :: bs) ++ rest) acc off n = .finished (.ok v) (n + 1) := by
  simp [answers, decFrom, h]

theorem decFrom_of_invalid (h : absorb signed x acc off = .invalid) (bs : List Byte) (rest : List SrcAnswer) (n : Nat) :
    decFrom signed (answers (x :: bs) ++ rest) acc off n = .finished .invalidData (n + 1) := by
  simp [answers, decFrom, h]

/-! ### A whole decode -/

/-- What a decode of `len` bytes that denote `v` gives (42_decode.md R174): the number, or `INVALID_DATA` at the boundary
byte when there are more bytes or `v` does not fit. -/
def DecRun.Yields (signed : Bool) (v : Int) (len : Nat) (r : DecRun w) : Prop :=
  if len ≤ nDecMax w ∧ Representable w signed v
  then ∃ y : BitVec w, valueOf signed y = v ∧ r = .finished (.ok y) len
  else r = .finished .invalidData (nDecMax w)

theorem DecRun.Yields.finished_ok {v : Int} {len : Nat} {r : DecRun w} (h : r.Yields signed v len)
    (hlen : len ≤ nDecMax w) (hv : Representable w signed v) :
    ∃ y : BitVec w, valueOf signed y = v ∧ r = .finished (.ok y) len := by
  rwa [DecRun.Yields, if_pos ⟨hlen, hv⟩] at h

theorem DecRun.Yields.finished_invalidData {v : Int} {len : Nat} {r : DecRun w} (h : r.Yields signed v len)
    (hv : ¬(len ≤ nDecMax w ∧ Representable w signed v)) : r = .finished .invalidData (nDecMax w) := by
  rwa [DecRun.Yields, if_neg hv] at h

/-- After `n` bytes, all of them continuation bytes, a final byte ends the decode. -/
theorem decFrom_yields_of_final (hw : 1 ≤ w) (hx : contFlag x = false) {n : Nat} (hn : n ≤ w / 7)
    (hacc : acc.toNat < 2 ^ (7 * n)) (rest : List SrcAnswer) :
    (decFrom signed (answers [x] ++ rest) acc (7 * n) n).Yields signed
      (acc.toNat + 2 ^ (7 * n) * valueOf signed (payload x)) (n + 1) := by
  have hlen : n + 1 ≤ nDecMax w := Nat.succ_le_succ hn
  have habsorb := absorb_of_not_contFlag (signed := signed) hx acc (7 * n)
  obtain hlt | rfl := hn.lt_or_eq
  · have hoff : 7 * n < maxShift w := by unfold maxShift; omega
    have hvalue := valueOf_endValue (signed := signed) (p := payload x) hacc (by omega)
    have hfits := hvalue ▸ representable_valueOf signed (endValue signed (payload x) acc (7 * n))
    rw [absorbFinal_below_eq hoff] at habsorb
    rw [DecRun.Yields, if_pos ⟨hlen, hfits⟩]
    exact ⟨_, hvalue, decFrom_of_value habsorb [] rest n⟩
  · have hoff : 7 * (w / 7) = maxShift w := mul_comm _ _
    rw [hoff] at hacc habsorb ⊢
    have hlegal := legalLast_iff_representable hw (signed := signed) (p := payload x) hacc
    rw [absorbFinal_boundary_eq] at habsorb
    by_cases hfits : Representable w signed (acc.toNat + 2 ^ maxShift w * valueOf signed (payload x))
    · rw [if_pos (hlegal.2 hfits)] at habsorb
      rw [DecRun.Yields, if_pos ⟨hlen, hfits⟩]
      exact ⟨_, valueOf_eq_of_modEq hw hfits (or_zextBoundary_modEq hacc), decFrom_of_value habsorb [] rest _⟩
    · rw [if_neg (mt hlegal.1 hfits)] at habsorb
      rw [DecRun.Yields, if_neg fun h => hfits h.2]
      exact decFrom_of_invalid habsorb [] rest _

/-- R174, from any byte of the operation on: `n` bytes have been taken and the accumulator holds their payloads. -/
theorem decFrom_yields (hw : 1 ≤ w) {bs : List Byte} (hbs : isWireForm bs = true) {n : Nat} (hn : n ≤ w / 7)
    (hacc : acc.toNat < 2 ^ (7 * n)) (rest : List SrcAnswer) :
    (decFrom signed (answers bs ++ rest) acc (7 * n) n).Yields signed (acc.toNat + 2 ^ (7 * n) * reading signed bs)
      (n + bs.length) := by
  have hne := ne_nil_of_isWireForm hbs
  induction bs, hne using List.recNeNil generalizing acc n with
  | singleton x =>
    rw [reading_singleton]
    exact decFrom_yields_of_final hw (isWireForm_singleton_iff.1 hbs) hn hacc rest
  | cons x bs hne ih =>
    obtain ⟨hx, hbs⟩ := (isWireForm_cons_iff hne).1 hbs
    have habsorb := absorb_of_contFlag (signed := signed) hx acc (7 * n)
    obtain hlt | rfl := hn.lt_or_eq
    · have hoff : 7 * n < maxShift w := by unfold maxShift; omega
      have hroom : 7 * n + 7 ≤ w := by omega
      have hacc1 := toNat_or_zextPayload_lt hacc hroom (payload x)
      have hrest := ih hbs (n := n + 1) hlt hacc1
      have hvalue : ((acc ||| zextPayload w (payload x) <<< (7 * n)).toNat : Int) +
          2 ^ (7 * (n + 1)) * reading signed bs = acc.toNat + 2 ^ (7 * n) * reading signed (x :: bs) := by
        rw [toNat_or_zextPayload hacc hroom, reading_cons signed x hne, Nat.mul_succ, pow_add]; push_cast; ring
      rw [absorbCont_below hoff] at habsorb
      rw [decFrom_of_more habsorb, List.length_cons, Nat.add_comm bs.length, ← Nat.add_assoc, ← hvalue]
      exact hrest
    · have hoff : 7 * (w / 7) = maxShift w := mul_comm _ _
      have hlen : ¬w / 7 + (x :: bs).length ≤ nDecMax w := by
        have := List.length_pos_iff.2 hne
        rw [List.length_cons, nDecMax]; omega
      rw [hoff, absorbCont_boundary] at habsorb
      rw [hoff, DecRun.Yields, if_neg fun h => hlen h.1]
      exact decFrom_of_invalid habsorb bs rest _

/-- R174 for a wire form, whatever follows it on the source. -/
theorem dec_yields (hw : 1 ≤ w) {bs : List Byte} (hbs : isWireForm bs = true) (rest : List SrcAnswer) :
    (dec w signed (answers bs ++ rest)).Yields signed (reading signed bs) bs.length := by
  simpa [dec] using decFrom_yields hw hbs (acc := 0#w) (n := 0) (Nat.zero_le _) (by simp) rest

/-! ### What the encoder writes -/

theorem dec_enc_yields {w1 w2 : Nat} (hw1 : 1 ≤ w1) (hw2 : 1 ≤ w2) (signed : Bool) (x : BitVec w1)
    (rest : List SrcAnswer) :
    (dec w2 signed (answers (enc signed x) ++ rest)).Yields signed (valueOf signed x) (enc signed x).length := by
  have henc := enc_encodesTo hw1 signed x
  have hdec := dec_yields hw2 henc.wireForm rest (signed := signed)
  rwa [henc.reading_eq hw1] at hdec

theorem nEncMax_le_nDecMax (w : Nat) : nEncMax w ≤ nDecMax w := by
  unfold nEncMax nDecMax; omega

theorem length_enc_le_nDecMax {w1 w2 : Nat} (hw1 : 1 ≤ w1) (hw2 : 1 ≤ w2) {signed : Bool} {x : BitVec w1}
    (hx : Representable w2 signed (valueOf signed x)) : (enc signed x).length ≤ nDecMax w2 := by
  have hpos : 1 ≤ nEncMax w2 := by unfold nEncMax; omega
  refine le_trans ?_ (nEncMax_le_nDecMax w2)
  rw [(enc_encodesTo hw1 signed x).length_le_iff hw1 hpos]
  exact hx.mono (le_seven_mul_nEncMax w2)

theorem one_le_of_admittedWidth (h : admittedWidth w = true) : 1 ≤ w := by
  simp only [admittedWidth, Bool.or_eq_true, beq_iff_eq] at h
  omega

/-- Settles O60: what the first width writes denotes its value in as few bytes as hold it, so a decode at the second width
has room for them when the value fits. -/
theorem overflowRejectionLaw : Obligations.OverflowRejectionLaw := by
  intro w1 w2 h1 h2 signed x
  have hw1 := one_le_of_admittedWidth h1
  have hw2 := one_le_of_admittedWidth h2
  have hdec := dec_enc_yields hw1 hw2 signed x []
  rw [List.append_nil] at hdec
  exact ⟨fun hx => hdec.finished_ok (length_enc_le_nDecMax hw1 hw2 hx) hx,
    fun hx => ⟨_, hdec.finished_invalidData fun h => hx h.2⟩⟩

/-- Settles O59: a value fits its own width, and the decoded word stands for the same number. -/
theorem roundTripLaw : Obligations.RoundTripLaw := by
  intro w hadmitted signed x rest
  have hw := one_le_of_admittedWidth hadmitted
  have hx := representable_valueOf signed x
  obtain ⟨y, hy, hdec⟩ := (dec_enc_yields hw hw signed x rest).finished_ok (length_enc_le_nDecMax hw hw hx) hx
  rwa [valueOf_inj.1 hy] at hdec

end Sys2Proof.Machine
end

section
/-!
PROOF. 42_decode.md, section 5: the two classes of wire byte in `D_RECV` (R178) and the result transfer (R179).
-/

namespace Sys2Proof.Machine

variable {w : Nat}

/-! ### A byte in `D_RECV`, by what it makes of the accumulator -/

section

variable {s : State} {p : Payload} (hrecv : s.block.dec.state = .recv)
include hrecv

theorem exec_byteCont_of_recv :
    exec (.byteCont p) s = s.lift (applyAbsorbed (absorbCont p s.block.dec.acc s.block.dec.off.toNat)
      (takeByte (wireByte true p) s.block)) := by
  simp [exec, execByteCont, readCont, readByte, hrecv]

theorem exec_byteFinal_of_recv :
    exec (.byteFinal p) s = s.lift (applyAbsorbed (absorbFinal s.signed p s.block.dec.acc s.block.dec.off.toNat)
      (takeByte (wireByte false p) s.block)) := by
  simp [exec, execByteFinal, readFinal, readByte, hrecv]

theorem exec_byteCont_of_more {acc : BitVec s.width}
    (h : absorbCont p s.block.dec.acc s.block.dec.off.toNat = .more acc) :
    exec (.byteCont p) s = .next (s.withBlock { s.block with
      taken := s.block.taken ++ [wireByte true p]
      dec := { s.block.dec with acc := acc, off := s.block.dec.off + 7#8 } }) := by
  rw [exec_byteCont_of_recv hrecv, h]; rfl

theorem exec_byteCont_of_invalid (h : absorbCont p s.block.dec.acc s.block.dec.off.toNat = .invalid) :
    exec (.byteCont p) s = .next (s.withBlock { s.block with
      taken := s.block.taken ++ [wireByte true p]
      dec := { s.block.dec with status := .invalidData, state := .done } }) := by
  rw [exec_byteCont_of_recv hrecv, h]; rfl

theorem exec_byteFinal_of_value {acc : BitVec s.width}
    (h : absorbFinal s.signed p s.block.dec.acc s.block.dec.off.toNat = .value acc) :
    exec (.byteFinal p) s = .next (s.withBlock { s.block with
      taken := s.block.taken ++ [wireByte false p]
      dec := { s.block.dec with acc := acc, status := .ok, state := .done } }) := by
  rw [exec_byteFinal_of_recv hrecv, h]; rfl

theorem exec_byteFinal_of_invalid (h : absorbFinal s.signed p s.block.dec.acc s.block.dec.off.toNat = .invalid) :
    exec (.byteFinal p) s = .next (s.withBlock { s.block with
      taken := s.block.taken ++ [wireByte false p]
      dec := { s.block.dec with status := .invalidData, state := .done } }) := by
  rw [exec_byteFinal_of_recv hrecv, h]; rfl

/-! ### A final byte at the boundary -/

variable (hoff : s.block.dec.off.toNat = maxShift s.width)
include hoff

theorem exec_byteFinal_of_legal (h : legalLast s.signed p s.block.dec.acc = true) :
    exec (.byteFinal p) s = .next (s.withBlock { s.block with
      taken := s.block.taken ++ [wireByte false p]
      dec := { s.block.dec with
        acc := s.block.dec.acc ||| zextBoundary s.width p <<< maxShift s.width, status := .ok, state := .done } }) :=
  exec_byteFinal_of_value hrecv (by rw [hoff, absorbFinal_boundary_eq, if_pos h])

theorem exec_byteFinal_of_not_legal (h : ¬legalLast s.signed p s.block.dec.acc = true) :
    exec (.byteFinal p) s = .next (s.withBlock { s.block with
      taken := s.block.taken ++ [wireByte false p]
      dec := { s.block.dec with status := .invalidData, state := .done } }) :=
  exec_byteFinal_of_invalid hrecv (by rw [hoff, absorbFinal_boundary_eq, if_neg h])

end

/-- Settles O22: a continuation byte is rejected, and a final byte ends the operation whether it is legal or not. -/
theorem boundaryByteMustBeFinal : Obligations.BoundaryByteMustBeFinal := by
  intro s p hrecv hoff
  refine ⟨exec_byteCont_of_invalid hrecv (by rw [hoff, absorbCont_boundary]), ?_⟩
  by_cases hlegal : legalLast s.signed p s.block.dec.acc = true
  · exact ⟨_, by rfl, by rfl, exec_byteFinal_of_legal hrecv hoff hlegal⟩
  · exact ⟨_, by rfl, by rfl, exec_byteFinal_of_not_legal hrecv hoff hlegal⟩

/-- Settles O28: below the boundary `absorbCont` goes on and `absorbFinal` ends with a value. -/
theorem onlyTheBoundaryByteIsChecked : Obligations.OnlyTheBoundaryByteIsChecked := by
  intro s x hrecv hoff
  have hx := wireByte_contFlag_payload x
  cases hflag : contFlag x with
  | true =>
    have hexec := exec_byteCont_of_more hrecv (absorbCont_below (p := payload x) (acc := s.block.dec.acc) hoff)
    rw [← hflag, hx] at hexec
    rw [decodeWire_of_contFlag hflag]
    exact ⟨_, hexec, fun _ => ⟨hrecv, rfl, rfl⟩, nofun⟩
  | false =>
    have hexec := exec_byteFinal_of_value hrecv
      (absorbFinal_below_eq (signed := s.signed) (p := payload x) (acc := s.block.dec.acc) hoff)
    rw [← hflag, hx] at hexec
    rw [decodeWire_of_not_contFlag hflag]
    exact ⟨_, hexec, nofun, fun _ => ⟨rfl, rfl⟩⟩

/-! ### The result transfer -/

theorem decEdge_of_result (signed : Bool) {b : Block w} (hrst : b.ports.rst = false)
    (hready : b.ports.decResReady = true) (hdone : b.dec.state = .done) :
    decEdge signed b = .next (giveResult .dec b) := by
  simp [decEdge, decSrcTransfer, decResTransfer, hrst, hready, hdone]

/-- `DEC.U` and `DEC.S`, each where it is the unit's operation, are the edge of the unit. -/
theorem exec_dec_eq_next {s : State} {c : Block s.width} (h : decEdge s.signed s.block = .next c) :
    (s.signed = false → exec .decU s = .next (s.withBlock c)) ∧
    (s.signed = true → exec .decS s = .next (s.withBlock c)) := by
  have hexec := exec_decOperation_of_next h
  constructor
  · intro hs
    rwa [show s.decOperation = .decU by simp [State.decOperation, hs]] at hexec
  · intro hs
    rwa [show s.decOperation = .decS by simp [State.decOperation, hs]] at hexec

/-- Settles O31: in `D_DONE` the edge is `giveResult`, and the outputs carry the status and the value. -/
theorem decResultIsDelivered : Obligations.DecResultIsDelivered := by
  intro s hrst hready hdone r d t
  have hedge : decEdge s.signed s.block =
      .next { s.block with dec := d, decResults := s.block.decResults ++ [r] } :=
    decEdge_of_result s.signed hrst hready hdone
  obtain ⟨hU, hS⟩ := exec_dec_eq_next hedge
  refine ⟨hU, hS, outputs_decResStatus hdone, fun hok => ⟨outputs_decResValue hdone hok, ?_⟩⟩
  simp [d, hok, DecUnit.reset]

end Sys2Proof.Machine
end

section
/-!
PROOF. 42_decode.md, section 3: where a payload goes (R165), the sign extension below the boundary (R170) and the check at
the boundary (R167, R171, R172).
-/

namespace Sys2Proof.Machine

variable {w : Nat}

/-! ### The bits of the accumulator -/

theorem toNat_lt_two_pow_iff {x : BitVec w} {n : Nat} : x.toNat < 2 ^ n ↔ ∀ i, n ≤ i → x.getLsbD i = false :=
  ⟨fun h _ hi => Nat.testBit_lt_two_pow (h.trans_le (Nat.pow_le_pow_right two_pos hi)), Nat.lt_pow_two_of_testBit _⟩

section

variable {acc : BitVec w} {off : Nat} (hacc : acc.toNat < 2 ^ off) (p : Payload) {i : Nat} (hi : i < w)
include hacc hi

/-- R165: the payload goes above the bits accumulated so far. -/
theorem getLsbD_or_zextPayload :
    (acc ||| zextPayload w p <<< off).getLsbD i =
      if off ≤ i ∧ i < off + 7 then p.getLsbD (i - off) else acc.getLsbD i := by
  have hhigh := toNat_lt_two_pow_iff.1 hacc i
  simp only [zextPayload, BitVec.getLsbD_or, BitVec.getLsbD_shiftLeft, BitVec.getLsbD_setWidth, hi]
  by_cases hoff : off ≤ i
  · by_cases hlt : i < off + 7
    · simp [hoff, hlt, hhigh hoff, show i - off < w by omega]
    · simp [hoff, hlt, BitVec.getLsbD_of_ge p (i - off) (by omega)]
  · simp [hoff, Nat.lt_of_not_le hoff]

/-- R170: above the payload of the last byte every bit is its bit 6 in the signed variant, and 0 in the unsigned one. -/
theorem getLsbD_endValue (signed : Bool) :
    (endValue signed p acc off).getLsbD i =
      if i < off then acc.getLsbD i else if i < off + 7 then p.getLsbD (i - off) else signed && p.getLsbD 6 := by
  have hhigh := toNat_lt_two_pow_iff.1 hacc i
  have hmerged := getLsbD_or_zextPayload hacc p hi
  by_cases htop : off + 7 ≤ i
  · have hfill : needsSignFill w signed p off = (signed && p.getLsbD 6) := by
      simp [needsSignFill, show off + 7 < w by omega]
    rw [if_neg (by omega), if_neg (by omega), endValue, hfill]
    rw [if_neg (by omega), hhigh (by omega)] at hmerged
    cases signed && p.getLsbD 6 with
    | false => exact hmerged
    | true => simp [hi, Nat.not_lt.2 htop]
  · have hkept : (endValue signed p acc off).getLsbD i = (acc ||| zextPayload w p <<< off).getLsbD i := by
      unfold endValue
      split
      · rw [BitVec.getLsbD_or, BitVec.getLsbD_shiftLeft]
        simp [Nat.lt_of_not_le htop]
      · rfl
    rw [hkept, hmerged]
    by_cases hlow : i < off
    · rw [if_neg (by omega), if_pos hlow]
    · rw [if_pos (by omega), if_neg hlow, if_pos (by omega)]

end

theorem endValue_unsigned (p : Payload) (acc : BitVec w) (off : Nat) :
    endValue false p acc off = acc ||| zextPayload w p <<< off := rfl

/-- Settles O24: the invariant leaves the bits at the offset free, and `endValue` fills nothing in the unsigned variant. -/
theorem accumulatePlacesThePayload : Obligations.AccumulatePlacesThePayload := by
  refine ⟨fun s p hinv hrecv hlt => ?_, fun _ _ => ⟨rfl, rfl, rfl⟩, fun _ => ⟨rfl, rfl, rfl⟩⟩
  obtain ⟨hsupported, -, hmod, hmax, hbits⟩ := hinv
  obtain ⟨hacc, -, -, -⟩ := hbits hrecv
  obtain ⟨-, hwidth⟩ := bounds_of_supportedWidth hsupported
  have hroom := add_seven_le_maxShift hmod hlt
  have hle := maxShift_le s.width
  refine ⟨toNat_lt_two_pow_iff.1 hacc,
    ⟨_, exec_byteCont_of_more hrecv (absorbCont_below hlt), fun i hi => getLsbD_or_zextPayload hacc p hi, ?_⟩,
    fun hs => ⟨_, exec_byteFinal_of_value hrecv (absorbFinal_below_eq hlt), fun i hi => ?_⟩⟩
  · exact (BitVec.toNat_add _ _).trans (Nat.mod_eq_of_lt (by rw [BitVec.toNat_ofNat]; omega))
  · rw [hs, endValue_unsigned]
    exact getLsbD_or_zextPayload hacc p hi

/-- Settles O29: the bits are those of `getLsbD_endValue`, and the value fits `off + 7` bits. -/
theorem signExtensionBelowBoundary : Obligations.SignExtensionBelowBoundary := by
  intro s p hinv hs hrecv hlt off
  obtain ⟨-, -, hmod, -, hbits⟩ := hinv
  obtain ⟨hacc, -, -, -⟩ := hbits hrecv
  have hroom : off + 7 ≤ s.width := (add_seven_le_maxShift hmod hlt).trans (maxShift_le s.width)
  have hvalue := valueOf_endValue (signed := true) (p := p) hacc hroom
  have hfits : Representable (off + 7) true (s.block.dec.acc.toNat + 2 ^ off * valueOf true p) :=
    (representable_add_two_pow_mul_iff hacc fun _ => by decide).2 (representable_valueOf true p)
  have hexec := exec_byteFinal_of_value hrecv (absorbFinal_below_eq (p := p) (acc := s.block.dec.acc) hlt)
  rw [hs] at hexec
  rw [← hvalue] at hfits
  refine ⟨_, hexec, rfl, rfl, fun i hi => ?_, ?_, hfits⟩
  · exact (getLsbD_endValue hacc p hi true).trans (by rw [Bool.true_and])
  · rw [mul_comm]; exact hvalue

/-! ### The boundary check -/

/-- Settles O25: the payloads that fit `K` bits are the legal ones. -/
theorem unsignedBoundaryCheck : Obligations.UnsignedBoundaryCheck := by
  intro s p hs hrecv hoff k taken
  have hlegal : legalLast s.signed p s.block.dec.acc = true ↔ p.toNat ≤ maxLastByte s.width := by
    rw [hs]; exact decide_eq_true_iff
  have hbits : p.toNat ≤ maxLastByte s.width ↔ ∀ i, k ≤ i → p.getLsbD i = false := by
    rw [← toNat_lt_two_pow_iff, ← legalLastU_iff]; exact decide_eq_true_iff.symm
  refine ⟨?_, fun h => exec_byteFinal_of_not_legal hrecv hoff (by rw [hlegal]; omega),
    fun h => exec_byteFinal_of_legal hrecv hoff (hlegal.2 h)⟩
  rw [← not_le, hbits]
  simp

/-- The payload bits from bit `n` up are all 0. -/
theorem payload_lt_two_pow_iff {p : Payload} {n : Nat} :
    p.toNat < 2 ^ n ↔ ∀ i, n ≤ i → i ≤ 6 → p.getLsbD i = false := by
  rw [toNat_lt_two_pow_iff]
  refine forall₂_congr fun i _ => ⟨fun h _ => h, fun h => ?_⟩
  by_cases hi : i ≤ 6
  · exact h hi
  · exact BitVec.getLsbD_of_ge p i (by omega)

/-- The payload bits from bit `n` up are all 1. -/
theorem le_payload_iff {p : Payload} {n : Nat} :
    128 - 2 ^ n ≤ p.toNat ↔ ∀ i, n ≤ i → i ≤ 6 → p.getLsbD i = true := by
  have hnot : 128 - 2 ^ n ≤ p.toNat ↔ (~~~p).toNat < 2 ^ n := by
    rw [BitVec.toNat_not]; omega
  rw [hnot, payload_lt_two_pow_iff]
  refine forall₃_congr fun i _ hi => ?_
  simp [show i < 7 by omega]

/-- R171: bit `K-1` of the payload comes to stand at bit `W-1`. -/
theorem msb_zextBoundary_shiftLeft (hk : 1 ≤ boundaryBits w) (p : Payload) :
    (zextBoundary w p <<< maxShift w).msb = p.getLsbD (boundaryBits w - 1) := by
  have hwidth := maxShift_add_boundaryBits w
  have hlast : w - 1 - maxShift w = boundaryBits w - 1 := by omega
  rw [BitVec.msb_eq_getLsbD_last, BitVec.getLsbD_shiftLeft, hlast, zextBoundary]
  simp [show 0 < w by omega, show ¬w - 1 < maxShift w by omega, show boundaryBits w - 1 < w by omega,
    show 0 < boundaryBits w from hk]

/-- Settles O26: the legal numbers are those whose bits 6 down to `K-1` agree. -/
theorem signedBoundaryCheck : Obligations.SignedBoundaryCheck := by
  intro s p hs hrecv hoff hk k taken legal acc
  have hlegal : legalLast s.signed p s.block.dec.acc = true ↔ legal := by
    rw [hs]; exact legalLastS_iff hk
  refine ⟨or_congr payload_lt_two_pow_iff le_payload_iff,
    fun h => exec_byteFinal_of_not_legal hrecv hoff (mt hlegal.1 h),
    fun h => exec_byteFinal_of_legal hrecv hoff (hlegal.2 h), fun hmsb => ?_⟩
  rw [BitVec.msb_or, hmsb, Bool.false_or]
  exact msb_zextBoundary_shiftLeft hk p

/-- R172: with `K = 0` the payloads of either signedness that extend the value. -/
theorem legalLast_iff_of_zero {signed : Bool} {p : Payload} {acc : BitVec w} (hk : boundaryBits w = 0) :
    legalLast signed p acc = true ↔
      if signed = true then (p = 0x00#7 ∧ acc.msb = false) ∨ (p = 0x7F#7 ∧ acc.msb = true) else p = 0x00#7 := by
  cases signed with
  | true => exact legalLastS_iff_of_zero hk
  | false =>
    refine legalLastU_iff.trans ?_
    rw [hk, pow_zero, Nat.lt_one_iff, ← BitVec.toNat_inj]; rfl

/-- Settles O27: the accumulator stays, there being no bit to contribute. -/
theorem boundaryCheckOfMultiplesOfSeven : Obligations.BoundaryCheckOfMultiplesOfSeven := by
  intro s p hrecv hoff hk taken legal
  have hlegal : legalLast s.signed p s.block.dec.acc = true ↔ legal := legalLast_iff_of_zero hk
  refine ⟨fun h => ?_, fun h => exec_byteFinal_of_not_legal hrecv hoff (mt hlegal.1 h)⟩
  have hexec := exec_byteFinal_of_legal hrecv hoff (hlegal.2 h)
  rwa [zextBoundary_eq_zero hk, BitVec.zero_shiftLeft, BitVec.or_zero] at hexec

end Sys2Proof.Machine
end

section
/-!
PROOF. 70_reset_and_hazards.md, the edge with `rst = 1` (R240, R242): reset wins over every transfer.
-/

namespace Sys2Proof.Machine

/-- R240: neither unit runs, whatever its state and its ports; the ports are sampled and the registers reset. -/
theorem step_of_rst {s : State} (hrst : (nextPorts s.block).rst = true) :
    step s = .next (s.withBlock (resetRegisters (samplePorts s.block))) := by
  rw [step_eq, if_pos hrst]

/-- Settles O40: `resetRegisters` writes the eight registers, and neither it nor `samplePorts` touches a record. -/
theorem resetEdgeWins : Obligations.ResetEdgeWins := by
  intro s hrst
  refine ⟨resetRegisters (samplePorts s.block), step_of_rst hrst, ?enc, ?dec, ?sink, ?taken, ?encResults, ?decResults⟩
  case enc => exact resetRegisters_enc _
  case dec => exact resetRegisters_dec _
  case sink => rw [resetRegisters_sink, samplePorts_sink]
  case taken => rw [resetRegisters_taken, samplePorts_taken]
  case encResults => rw [resetRegisters_encResults, samplePorts_encResults]
  case decResults => rw [resetRegisters_decResults, samplePorts_decResults]

end Sys2Proof.Machine
end

section
/-!
PROOF. 42_decode.md, sections 3 and 4: a decode over continuation bytes (R168, R173), what it returns in numbers (R174),
and that the encoder writes a wire form of its value (41_encode.md R131, R139).
-/

namespace Sys2Proof.Machine

variable {w : Nat} {signed : Bool}

/-! ### Continuation bytes -/

@[simp] theorem answers_append (as bs : List Byte) : answers (as ++ bs) = answers as ++ answers bs :=
  List.map_append

/-- Continuation bytes below the boundary leave the decode waiting for the next one. -/
theorem decFrom_of_continuations {bs : List Byte} (hbs : ∀ x ∈ bs, contFlag x = true) (rest : List SrcAnswer) {n : Nat}
    (hroom : n + bs.length ≤ w / 7) (acc : BitVec w) :
    ∃ acc1 : BitVec w, decFrom signed (answers bs ++ rest) acc (7 * n) n =
      decFrom signed rest acc1 (7 * (n + bs.length)) (n + bs.length) := by
  induction bs generalizing n acc with
  | nil => exact ⟨acc, rfl⟩
  | cons x bs ih =>
    obtain ⟨hx, hbs⟩ := List.forall_mem_cons.1 hbs
    rw [List.length_cons, Nat.add_comm bs.length, ← Nat.add_assoc] at hroom ⊢
    have hoff : 7 * n < maxShift w := by unfold maxShift; omega
    have habsorb := absorb_of_contFlag (signed := signed) hx acc (7 * n)
    rw [absorbCont_below hoff] at habsorb
    rw [decFrom_of_more habsorb]
    exact ih hbs hroom _

/-- Settles O58: fewer than `N_DEC_MAX` continuation bytes leave the decode waiting, and then the read fails. -/
theorem decodeFailsWithItsSource : Obligations.DecodeFailsWithItsSource := by
  intro w signed bs rest hbs hlen
  have hroom : 0 + bs.length ≤ w / 7 := by rw [nDecMax] at hlen; omega
  obtain ⟨acc, hdec⟩ := decFrom_of_continuations (signed := signed) hbs (.fail :: rest) hroom 0#w
  rw [dec, hdec, decFrom, Nat.zero_add]

/-- R168: the last of `N_DEC_MAX` continuation bytes stands at the boundary. -/
theorem dec_of_continuations {bs : List Byte} (hbs : ∀ x ∈ bs, contFlag x = true) (hlen : bs.length = nDecMax w)
    (rest : List SrcAnswer) : dec w signed (answers bs ++ rest) = .finished .invalidData (nDecMax w) := by
  have hne : bs ≠ [] := List.ne_nil_of_length_eq_add_one hlen
  obtain ⟨init, x, rfl⟩ := (List.eq_nil_or_concat' bs).resolve_left hne
  obtain ⟨hinit, hx⟩ := List.forall_mem_append.1 hbs
  have hroom : 0 + init.length = w / 7 := by simpa [nDecMax] using hlen
  have hoff : 7 * (w / 7) = maxShift w := mul_comm _ _
  obtain ⟨acc, hdec⟩ := decFrom_of_continuations (signed := signed) hinit (answers [x] ++ rest) hroom.le 0#w
  have habsorb := absorb_of_contFlag (signed := signed) (hx x (by simp)) acc (maxShift w)
  rw [absorbCont_boundary] at habsorb
  rw [hroom, hoff] at hdec
  rw [dec, answers_append, List.append_assoc]
  exact hdec.trans (decFrom_of_invalid habsorb [] rest _)

/-- Settles O57: a wire form is `dec_yields`, and one shorter than `N_DEC_MAX` bytes has at most `W` payload bits. -/
theorem decodeIsNumericallyExact : Obligations.DecodeIsNumericallyExact := by
  intro w hw signed bs rest
  refine ⟨fun hbs => dec_yields hw hbs rest, fun hbs hlen => dec_of_continuations hbs hlen rest, fun hbs hlen => ?_⟩
  have hbits : 7 * bs.length ≤ w := by rw [nDecMax] at hlen; omega
  exact (representable_reading signed (ne_nil_of_isWireForm hbs)).mono hbits

/-! ### What the encoder writes -/

/-- Settles O55: `enc` runs the recursion of R131 to its end, which gives the wire form and what it denotes. -/
theorem encodeDenotesItsValue : Obligations.EncodeDenotesItsValue := by
  intro w hw signed x
  have henc := enc_encodesTo hw signed x
  exact ⟨henc.wireForm, henc.reading_eq hw, length_enc_bounds hw signed x⟩

end Sys2Proof.Machine
end

section
/-!
PROOF. 20_memory.md, section 3, and 42_decode.md R178: what an edge is made of, for the machine and each unit without
a transfer (R56), and which instruction it runs.
-/

namespace Sys2Proof.Machine

variable {w : Nat}

/-! ### One step -/

theorem State.withBlock_inj {s : State} {b c : Block s.width} : s.withBlock b = s.withBlock c ↔ b = c := by
  simp [State.withBlock]

/-- An edge with `rst = 0` is the edge of `ENC` and then that of `DEC`. -/
theorem step_of_not_rst {s : State} (hrst : (nextPorts s.block).rst = false) :
    step s = s.lift (decEdge s.signed (encEdge s.signed (samplePorts s.block))) := by
  rw [step_eq, hrst, if_neg Bool.false_ne_true]

/-- What a step can answer: the reset registers at an edge with `rst = 1`, and otherwise what the two units do. -/
theorem step_eq_next {s t : State} :
    step s = .next t ↔ ∃ b, t = s.withBlock b ∧
      (((nextPorts s.block).rst = true ∧ b = resetRegisters (samplePorts s.block)) ∨
        ((nextPorts s.block).rst = false ∧
          decEdge s.signed (encEdge s.signed (samplePorts s.block)) = .next b)) := by
  cases hrst : (nextPorts s.block).rst with
  | true => simp [step_of_rst hrst, eq_comm]
  | false =>
    rw [step_of_not_rst hrst, State.lift_eq_next]
    refine exists_congr fun b => ?_
    simp [and_comm, eq_comm]

theorem step_eq_next_withBlock {s : State} {b : Block s.width} :
    step s = .next (s.withBlock b) ↔
      ((nextPorts s.block).rst = true ∧ b = resetRegisters (samplePorts s.block)) ∨
        ((nextPorts s.block).rst = false ∧ decEdge s.signed (encEdge s.signed (samplePorts s.block)) = .next b) := by
  rw [step_eq_next]
  simp only [State.withBlock_inj, exists_eq_left']

/-! ### A unit without a transfer -/

theorem encEdge_of_rst (signed : Bool) {b : Block w} (hrst : b.ports.rst = true) : encEdge signed b = b := by
  simp [encEdge, encInTransfer, encSnkTransfer, encResTransfer, hrst]

theorem decEdge_of_rst (signed : Bool) {b : Block w} (hrst : b.ports.rst = true) : decEdge signed b = .next b := by
  simp [decEdge, decSrcTransfer, decResTransfer, hrst]

theorem decEdge_of_wait (signed : Bool) {b : Block w} (hrecv : b.dec.state = .recv → b.ports.decSrcValid = false)
    (hdone : b.dec.state = .done → b.ports.decResReady = false) : decEdge signed b = .next b := by
  cases hstate : b.dec.state with
  | recv => simp [decEdge, decSrcTransfer, decResTransfer, hstate, hrecv hstate]
  | done => simp [decEdge, decSrcTransfer, decResTransfer, hstate, hdone hstate]

@[simp] theorem encEdge_ports (signed : Bool) (b : Block w) : (encEdge signed b).ports = b.ports := by
  obtain ⟨-, hedge⟩ | ⟨-, hedge⟩ | ⟨-, hedge⟩ | ⟨-, -, -, hedge⟩ := encEdge_cases signed b
  · simp [hedge]
  · obtain ⟨-, hwrite⟩ | ⟨-, hwrite⟩ := encWrite_cases signed b <;> simp [hedge, hwrite]
  · simp [hedge]
  · rw [hedge]

/-- Settles O17: at such an edge `encEdge` is the identity. -/
theorem encWithoutTransferKeepsAll : Obligations.EncWithoutTransferKeepsAll := by
  intro s h
  have hedge : encEdge s.signed s.block = s.block := by
    obtain hrst | ⟨hidle, hemit, hdone⟩ := h
    · exact encEdge_of_rst s.signed hrst
    · exact encEdge_of_wait s.signed hidle hemit hdone
  simpa using exec_enc_eq_next hedge

/-- Settles O32: at such an edge `decEdge` answers the same block. -/
theorem decWithoutTransferKeepsAll : Obligations.DecWithoutTransferKeepsAll := by
  intro s h
  have hedge : decEdge s.signed s.block = .next s.block := by
    obtain hrst | ⟨hrecv, hdone⟩ := h
    · exact decEdge_of_rst s.signed hrst
    · exact decEdge_of_wait s.signed hrecv hdone
  simpa using exec_dec_eq_next hedge

/-- Settles O44: over its own waiting edge a unit's edge is the identity, and the other unit's leaves its registers. -/
theorem unitsHoldUntilTheirTransfer : Obligations.UnitsHoldUntilTheirTransfer := by
  intro s b p hstep hrst
  have hedge := ((step_eq_next_withBlock.1 hstep).resolve_left (by simp [p, hrst])).2
  constructor
  · intro hidle hemit hdone
    rw [decEdge_enc hedge, encEdge_of_wait (b := samplePorts s.block) s.signed hidle hemit hdone]; rfl
  · intro hrecv hdone
    rw [decEdge_of_wait s.signed (by simpa using hrecv) (by simpa using hdone)] at hedge
    cases hedge
    rw [encEdge_dec]; rfl

/-! ### The decoder at an edge with a byte -/

theorem decEdge_of_fail (signed : Bool) {b : Block w} (hrst : b.ports.rst = false) (hvalid : b.ports.decSrcValid = true)
    (herr : b.ports.decSrcErr = true) (hrecv : b.dec.state = .recv) :
    decEdge signed b = .next (raiseError .dec .ioError b) := by
  simp [decEdge, decSrcTransfer, decRead, srcRead, hrst, hvalid, herr, hrecv]

/-- A byte that the unit reads is taken, and makes of the registers what `absorb` says. -/
theorem decEdge_of_byte (signed : Bool) {b : Block w} (hrst : b.ports.rst = false) (hvalid : b.ports.decSrcValid = true)
    (herr : b.ports.decSrcErr = false) (hrecv : b.dec.state = .recv) :
    decEdge signed b = applyAbsorbed (absorb signed b.ports.decSrcByte b.dec.acc b.dec.off.toNat)
      (takeByte b.ports.decSrcByte b) := by
  have hbyte := wireByte_contFlag_payload b.ports.decSrcByte
  cases hflag : contFlag b.ports.decSrcByte <;> rw [hflag] at hbyte <;>
    simp [decEdge, decSrcTransfer, decRead, srcRead, readCont, readFinal, readByte, absorb, hrst, hvalid, herr, hrecv,
      hflag, hbyte]

/-- The instruction of a wire byte, by the state of the decoder. -/
theorem exec_decodeWire_of_recv {s : State} (x : Byte) (hrecv : s.block.dec.state = .recv) :
    exec (decodeWire x) s = s.lift (applyAbsorbed (absorb s.signed x s.block.dec.acc s.block.dec.off.toNat)
      (takeByte x s.block)) := by
  have hbyte := wireByte_contFlag_payload x
  cases hflag : contFlag x with
  | true =>
    rw [decodeWire_of_contFlag hflag, exec_byteCont_of_recv hrecv, absorb_of_contFlag hflag, ← hflag, hbyte]
  | false =>
    rw [decodeWire_of_not_contFlag hflag, exec_byteFinal_of_recv hrecv, absorb_of_not_contFlag hflag, ← hflag, hbyte]

theorem exec_byteCont_of_done {s : State} {p : Payload} (hdone : s.block.dec.state = .done) :
    exec (.byteCont p) s = .next s := by
  simp [exec, execByteCont, readCont, readByte, hdone]

theorem exec_byteFinal_of_done {s : State} {p : Payload} (hdone : s.block.dec.state = .done) :
    exec (.byteFinal p) s = .next s := by
  simp [exec, execByteFinal, readFinal, readByte, hdone]

theorem exec_decodeWire_of_done {s : State} (x : Byte) (hdone : s.block.dec.state = .done) :
    exec (decodeWire x) s = .next s := by
  cases hflag : contFlag x with
  | true => rw [decodeWire_of_contFlag hflag, exec_byteCont_of_done hdone]
  | false => rw [decodeWire_of_not_contFlag hflag, exec_byteFinal_of_done hdone]

/-- A byte on the source is run as the instruction of its class (30_encoding.md R81), in `D_DONE` as none. -/
theorem exec_decodeWire_eq_decEdge {s : State} (hrst : s.block.ports.rst = false)
    (hvalid : s.block.ports.decSrcValid = true) (herr : s.block.ports.decSrcErr = false)
    (hdone : s.block.dec.state = .done → s.block.ports.decResReady = false) :
    exec (decodeWire s.block.ports.decSrcByte) s = s.lift (decEdge s.signed s.block) := by
  cases hstate : s.block.dec.state with
  | recv => rw [exec_decodeWire_of_recv _ hstate, decEdge_of_byte s.signed hrst hvalid herr hstate]
  | done => rw [exec_decodeWire_of_done _ hstate, decEdge_of_wait s.signed (by simp [hstate]) hdone]; rfl

/-! ### What a step runs -/

/-- Settles O37: `encOperation` and `decOperation` are the choices by `SIGNED`, and the first leaves `SIGNED` alone. -/
theorem stepRunsBothUnits : Obligations.StepRunsBothUnits := by
  intro s hrst
  have hrun : step s = runUnits s.sampled := if_neg (by simp [hrst])
  rw [hrun, runUnits]
  change _ = andThen (exec s.sampled.encOperation s.sampled) _
  rw [exec_encOperation]; rfl

/-- The encoder waits at the coming edge: the step is the edge of `DEC` on the sampled block. -/
theorem step_of_encWait {s : State} (hrst : (nextPorts s.block).rst = false)
    (hidle : s.block.enc.state = .idle → (nextPorts s.block).encInValid = false)
    (hemit : s.block.enc.state = .emit → (nextPorts s.block).encSnkReady = false)
    (hdone : s.block.enc.state = .done → (nextPorts s.block).encResReady = false) :
    step s = s.sampled.lift (decEdge s.signed (samplePorts s.block)) := by
  rw [step_of_not_rst hrst, encEdge_of_wait (b := samplePorts s.block) s.signed hidle hemit hdone]; rfl

/-- The decoder waits at the coming edge: the step is the edge of `ENC` on the sampled block. -/
theorem step_of_decWait {s : State} (hrst : (nextPorts s.block).rst = false)
    (hrecv : s.block.dec.state = .recv → (nextPorts s.block).decSrcValid = false)
    (hdone : s.block.dec.state = .done → (nextPorts s.block).decResReady = false) :
    step s = .next (s.withBlock (encEdge s.signed (samplePorts s.block))) := by
  rw [step_of_not_rst hrst, decEdge_of_wait s.signed (by simpa using hrecv) (by simpa using hdone)]; rfl

/-- Settles O38: the encoder waits, and the decoder's edge is the instruction of the byte. -/
theorem stepRunsTheDeliveredByte : Obligations.StepRunsTheDeliveredByte := by
  intro s p hrst hvalid herr hrecv hidle hemit hdone
  rw [step_of_encWait hrst hidle hemit hdone]
  exact (exec_decodeWire_eq_decEdge (s := s.sampled) hrst hvalid herr (by simp [hrecv])).symm

/-! ### What the host places -/

theorem step_of_encDrive {s : State} (h : nextPorts s.block = encDrive s.width) :
    step s = exec s.encOperation s.sampled := by
  rw [step_of_decWait (by rw [h]; rfl) (fun _ => by rw [h]; rfl) (fun _ => by rw [h]; rfl)]
  exact (exec_encOperation s.sampled).symm

theorem step_of_decDrive {s : State} {x : Byte} (h : nextPorts s.block = decDrive s.width x) :
    step s = exec s.decOperation s.sampled := by
  rw [step_of_encWait (by rw [h]; rfl) (fun _ => by rw [h]; rfl) (fun _ => by rw [h]; rfl) (fun _ => by rw [h]; rfl)]
  exact (exec_decOperation s.sampled).symm

theorem step_of_byteDrive {s : State} {x : Byte} (h : nextPorts s.block = byteDrive s.width x) :
    step s = exec (decodeWire x) s.sampled := by
  rw [step_of_encWait (by rw [h]; rfl) (fun _ => by rw [h]; rfl) (fun _ => by rw [h]; rfl) (fun _ => by rw [h]; rfl)]
  have hports : s.sampled.block.ports = byteDrive s.width x := h
  have hexec := exec_decodeWire_eq_decEdge (s := s.sampled) (by rw [hports]; rfl) (by rw [hports]; rfl)
    (by rw [hports]; rfl) (fun _ => by rw [hports]; rfl)
  rw [hports] at hexec
  exact hexec.symm

@[simp] theorem decodeWire_wireByte (c : Bool) (p : Payload) :
    decodeWire (wireByte c p) = if c then .byteCont p else .byteFinal p := by
  simp [decodeWire]

/-- The edge that is placed for an instruction runs it. -/
theorem step_placeInstr (s : State) (i : Instr) : step (s.placeInstr i) = exec i (s.placeInstr i).sampled := by
  cases i with
  | encU => exact step_of_encDrive (s := s.placeInstr .encU) rfl
  | encS => exact step_of_encDrive (s := s.placeInstr .encS) rfl
  | decU => exact step_of_decDrive (s := s.placeInstr .decU) rfl
  | decS => exact step_of_decDrive (s := s.placeInstr .decS) rfl
  | byteCont p => simpa using step_of_byteDrive (s := s.placeInstr (.byteCont p)) rfl
  | byteFinal p => simpa using step_of_byteDrive (s := s.placeInstr (.byteFinal p)) rfl

/-- Settles O39: the word that is placed is the instruction it decodes to. -/
theorem stepRunsThePlacedWord : Obligations.StepRunsThePlacedWord := by
  intro s nbits v i hdecode
  rw [State.withFetchWord, hdecode]
  exact step_placeInstr s i

end Sys2Proof.Machine
end

section
/-!
PROOF. 41_encode.md, sections 2 and 4: when a byte is the last one (R134) and the write of a byte (R141, R143).
-/

namespace Sys2Proof.Machine

variable {w : Nat}

/-! ### The last byte by range -/

theorem sar_eq_zero_iff {x : BitVec w} {n : Nat} : sar x n = 0#w ↔ x.toInt / 2 ^ n = 0 := by
  rw [← BitVec.toInt_inj, toInt_sar, BitVec.toInt_zero]

theorem sar_eq_allOnes_iff (hw : 1 ≤ w) {x : BitVec w} {n : Nat} :
    sar x n = BitVec.allOnes w ↔ x.toInt / 2 ^ n = -1 := by
  rw [← BitVec.toInt_inj, toInt_sar, BitVec.toInt_allOnes, if_pos (Nat.lt_of_lt_of_le one_pos hw)]

/-- Settles O11: a byte is the last one when its payload holds the value, and a shift by 6 leaves the sign alone exactly
then. -/
theorem lastByteByRange : Obligations.LastByteByRange := by
  intro w hw x
  have hsigned : isLast true x = true ↔ -64 ≤ x.toInt ∧ x.toInt ≤ 63 := by
    rw [isLast_iff_representable hw, representable_signed_iff, valueOf, if_pos rfl]
    omega
  refine ⟨?_, hsigned, ?_⟩
  · rw [isLast_iff_representable hw, representable_unsigned_iff, valueOf, if_neg Bool.false_ne_true]
    omega
  · rw [hsigned, sar_eq_zero_iff, sar_eq_allOnes_iff hw]
    omega

/-! ### The write -/

/-- The last-byte test of R133 as a proposition. -/
theorem isLast_signed_iff {x : BitVec w} :
    isLast true x = true ↔
      (sar x 7 = 0#w ∧ (x.signExtend 7).getLsbD 6 = false) ∨
        (sar x 7 = BitVec.allOnes w ∧ (x.signExtend 7).getLsbD 6 = true) := by
  simp [isLast_eq, lastS, low7_eq]

/-- The last-byte test of R132 as a proposition. -/
theorem isLast_unsigned_iff {x : BitVec w} : isLast false x = true ↔ shr x 7 = 0#w := by
  simp [isLast_eq, lastU]

/-- A write that fails (R143): the sink keeps the byte or not. -/
theorem encWrite_of_fail (signed : Bool) {b : Block w} (herr : b.ports.encSnkErr = true) :
    encWrite signed b = { b with
      enc := { b.enc with status := .ioError, state := .done }
      sink := if b.ports.snkKeeps then b.sink ++ [encByte signed b.enc.val] else b.sink } := by
  cases hkeeps : b.ports.snkKeeps <;> simp [encWrite, snkAnswer, snkHand, herr, hkeeps, raiseError, errorStatus]

/-- Settles O13: the byte and the registers turn on the shifted value being 0. -/
theorem encWriteOkUnsigned : Obligations.EncWriteOkUnsigned := by
  rintro ⟨w, signed, b⟩ rfl hrst hready herr hemit x nxt byte
  have hbyte : encByte false x = byte := by
    have hlast : isLast false x = (nxt == 0#w) := rfl
    rw [encByte, low7_eq, hlast]; rfl
  have hedge := encEdge_of_write (b := b) false hrst hready hemit
  rw [encWrite_of_ok false herr, hbyte, encAdvance] at hedge
  simp only [isLast_unsigned_iff] at hedge
  exact ⟨(outputs_encSnkByte hemit).trans hbyte, (exec_enc_eq_next (s := ⟨w, false, b⟩) hedge).1 rfl⟩

/-- Settles O14: the byte and the registers turn on the shifted value being the extension of bit 6. -/
theorem encWriteOkSigned : Obligations.EncWriteOkSigned := by
  rintro ⟨w, signed, b⟩ rfl hrst hready herr hemit x nxt low last byte
  have hbyte : encByte true x = byte := by
    have hlast : isLast true x = decide last := Bool.eq_iff_iff.2 (isLast_signed_iff.trans decide_eq_true_iff.symm)
    rw [encByte, low7_eq, hlast]; rfl
  have hedge := encEdge_of_write (b := b) true hrst hready hemit
  rw [encWrite_of_ok true herr, hbyte, encAdvance] at hedge
  simp only [isLast_signed_iff] at hedge
  exact ⟨(outputs_encSnkByte hemit).trans hbyte, (exec_enc_eq_next (s := ⟨w, true, b⟩) hedge).2 rfl⟩

/-- Settles O15: the edge is the failing write, and the outputs of `E_DONE` follow. -/
theorem encFailedWriteEndsTheOperation : Obligations.EncFailedWriteEndsTheOperation := by
  intro s hrst hready herr hemit t
  have hedge := encEdge_of_write s.signed hrst hready hemit
  rw [encWrite_of_fail s.signed herr, ← outputs_encSnkByte (signed := s.signed) hemit] at hedge
  obtain ⟨hU, hS⟩ := exec_enc_eq_next hedge
  exact ⟨hU, hS, rfl, rfl, rfl, rfl⟩

/-! ### The frame -/

/-- The block with what unit `ENC` owns replaced (10_state.md R26). -/
def putEnc (e : EncUnit w) (k : List Byte) (r : List (OpResult (BitVec 5))) (b : Block w) : Block w :=
  { b with enc := e, sink := k, encResults := r }

theorem encSnkTransfer_iff {b : Block w} :
    encSnkTransfer b = true ↔ b.ports.rst = false ∧ b.ports.encSnkReady = true ∧ b.enc.state = .emit := by
  simp [encSnkTransfer, and_assoc]

theorem encResTransfer_iff {b : Block w} :
    encResTransfer b = true ↔ b.ports.rst = false ∧ b.ports.encResReady = true ∧ b.enc.state = .done := by
  simp [encResTransfer, and_assoc]

/-- What an edge of `ENC` leaves alone, and by what the sink and the results can grow. -/
theorem encEdge_frame (signed : Bool) (b : Block w) :
    ∃ e k r, encEdge signed b = putEnc e k r b ∧
      (k = b.sink ∨ (b.enc.state = .emit ∧ b.ports.encSnkReady = true ∧ k = b.sink ++ [encByte signed b.enc.val])) ∧
      (r = b.encResults ∨ (b.enc.state = .done ∧ b.ports.encResReady = true ∧ ∃ x, r = b.encResults ++ [x])) := by
  obtain ⟨-, hedge⟩ | ⟨hsnk, hedge⟩ | ⟨hres, hedge⟩ | ⟨-, -, -, hedge⟩ := encEdge_cases signed b
  · exact ⟨_, _, _, hedge, .inl rfl, .inl rfl⟩
  · obtain ⟨-, hready, hemit⟩ := encSnkTransfer_iff.1 hsnk
    obtain ⟨herr, -⟩ | ⟨herr, -⟩ := encWrite_cases signed b
    · exact ⟨_, _, _, hedge.trans (encWrite_of_ok signed herr), .inr ⟨hemit, hready, rfl⟩, .inl rfl⟩
    · refine ⟨_, _, _, hedge.trans (encWrite_of_fail signed herr), ?_, .inl rfl⟩
      cases b.ports.snkKeeps with
      | true => exact .inr ⟨hemit, hready, rfl⟩
      | false => exact .inl rfl
  · obtain ⟨-, hready, hdone⟩ := encResTransfer_iff.1 hres
    exact ⟨_, _, _, hedge, .inl rfl, .inr ⟨hdone, hready, _, rfl⟩⟩
  · exact ⟨_, _, _, hedge, .inl rfl, .inl rfl⟩

@[simp] theorem encEdge_taken (signed : Bool) (b : Block w) : (encEdge signed b).taken = b.taken := by
  obtain ⟨e, k, r, hedge, -⟩ := encEdge_frame signed b
  rw [hedge]; rfl

@[simp] theorem encEdge_decResults (signed : Bool) (b : Block w) : (encEdge signed b).decResults = b.decResults := by
  obtain ⟨e, k, r, hedge, -⟩ := encEdge_frame signed b
  rw [hedge]; rfl

theorem exec_encU_eq (s : State) : exec .encU s = s.inInstance false "ENC.U" fun b => .next (encEdge false b) := rfl

theorem exec_encS_eq (s : State) : exec .encS s = s.inInstance true "ENC.S" fun b => .next (encEdge true b) := rfl

/-- An operation of `ENC` that answers is the edge of the unit. -/
theorem exec_enc_inv {i : Instr} {s t : State} (hi : i = .encU ∨ i = .encS) (h : exec i s = .next t) :
    t = s.withBlock (encEdge s.signed s.block) := by
  obtain rfl | rfl := hi
  · obtain ⟨hs, b, hb, rfl⟩ := State.inInstance_eq_next.1 (exec_encU_eq s ▸ h)
    cases hb; rw [hs]
  · obtain ⟨hs, b, hb, rfl⟩ := State.inInstance_eq_next.1 (exec_encS_eq s ▸ h)
    cases hb; rw [hs]

/-- Settles O18: the frame of the unit's edge, the byte being the one on the port. -/
theorem encFrame : Obligations.EncFrame := by
  intro i s t hi h
  obtain ⟨e, k, r, hedge, hk, hr⟩ := encEdge_frame s.signed s.block
  refine ⟨e, k, r, (exec_enc_inv hi h).trans (congrArg s.withBlock hedge), hk.imp_right ?_, hr⟩
  rintro ⟨hemit, hready, rfl⟩
  exact ⟨hemit, hready, by rw [← outputs_encSnkByte hemit]; rfl⟩

end Sys2Proof.Machine
end

section
/-!
PROOF. 42_decode.md, section 5, and 60_exceptions.md, section 1: a read by `DEC.U` or `DEC.S` (R178), the two classes of
byte below the boundary, `D_DONE` (R180), where `INVALID_DATA` arises, and the frame of the unit.
-/

namespace Sys2Proof.Machine

variable {w : Nat}

/-! ### A read -/

/-- Settles O19: the read that fails is `raiseError`, whatever the offset. -/
theorem decFailingReadIsIoError : Obligations.DecFailingReadIsIoError :=
  fun s hrst hvalid herr hrecv => exec_dec_eq_next (decEdge_of_fail s.signed hrst hvalid herr hrecv)

/-- With the offset up to the boundary no byte needs a shift without a value. -/
theorem absorb_ne_noShift {signed : Bool} {x : Byte} {acc : BitVec w} {off : Nat} (h : off ≤ maxShift w) :
    absorb signed x acc off ≠ .noShift := by
  cases hflag : contFlag x with
  | true => rw [absorb_of_contFlag hflag]; exact absorbCont_ne_noShift h
  | false => rw [absorb_of_not_contFlag hflag]; exact absorbFinal_ne_noShift h

/-- A byte that is read is taken. -/
theorem applyAbsorbed_taken {a : Absorbed w} {b c : Block w} (h : applyAbsorbed a b = .next c) : c.taken = b.taken := by
  obtain ⟨_, -, rfl⟩ | ⟨_, -, rfl⟩ | ⟨-, rfl⟩ := applyAbsorbed_eq_next.1 h <;> rfl

/-- Settles O20: the byte's instruction and the unit's edge both apply what `absorb` says. -/
theorem decReadRunsTheByteClass : Obligations.DecReadRunsTheByteClass := by
  intro s hrst hvalid herr hrecv hoff
  have hedge := decEdge_of_byte s.signed hrst hvalid herr hrecv
  obtain ⟨c, hc⟩ := applyAbsorbed_answers (absorb_ne_noShift hoff) (takeByte s.block.ports.decSrcByte s.block)
  refine ⟨s.withBlock c, ?_, applyAbsorbed_taken hc, exec_dec_eq_next (hedge.trans hc)⟩
  rw [exec_decodeWire_of_recv _ hrecv, hc, State.lift_next]

/-- Settles O21: below the boundary `absorbCont` goes on with the payload merged in. -/
theorem byteContBelowBoundary : Obligations.ByteContBelowBoundary :=
  fun _ _ hrecv hoff => exec_byteCont_of_more hrecv (absorbCont_below hoff)

/-- R170: the condition of the sign fill. -/
theorem needsSignFill_iff_getLsbD {signed : Bool} {p : Payload} {off : Nat} :
    needsSignFill w signed p off = true ↔ signed = true ∧ p.getLsbD 6 = true ∧ off + 7 < w := by
  simp [needsSignFill, and_assoc]

/-- Settles O23: below the boundary `absorbFinal` ends with a value, filled as the condition of R170 says. -/
theorem byteFinalBelowBoundary : Obligations.ByteFinalBelowBoundary := by
  intro s p hrecv hoff off acc1
  have hexec := exec_byteFinal_of_value hrecv
    (absorbFinal_below (signed := s.signed) (p := p) (acc := s.block.dec.acc) hoff)
  simp only [needsSignFill_iff_getLsbD] at hexec
  exact hexec

/-- Settles O30: in `D_DONE` a byte is left alone, and the unit's edge waits for the host. -/
theorem noByteIsTakenInDone : Obligations.NoByteIsTakenInDone := by
  intro s p hdone
  refine ⟨exec_byteCont_of_done hdone, exec_byteFinal_of_done hdone, ?_, fun hready => ?_⟩
  · exact beq_eq_false_iff_ne.2 (by simp [hdone])
  · simpa using exec_dec_eq_next (decEdge_of_wait s.signed (by simp [hdone]) fun _ => hready)

/-! ### Which instructions are refused -/

theorem State.lift_answers {s : State} {o : Host.Outcome (Block s.width) Fault Refusal} (h : ∃ b, o = .next b) :
    ∃ t, s.lift o = .next t := by
  obtain ⟨b, rfl⟩ := h
  exact ⟨_, s.lift_next b⟩

/-- An operation available exactly at `SIGNED = want` answers there if the block does, and is refused elsewhere. -/
theorem State.inInstance_answers_or_refused {s : State} {want available : Bool} {m : String}
    {f : Block s.width → Host.Outcome (Block s.width) Fault Refusal} (havailable : available = true ↔ s.signed = want)
    (h : ∃ b, f s.block = .next b) :
    (available = true → ∃ t, s.inInstance want m f = .next t) ∧
      (available = false → s.inInstance want m f = .refused (.otherInstance m)) := by
  rw [havailable, ← Bool.not_eq_true, havailable]
  refine ⟨fun hs => ?_, fun hs => State.inInstance_of_ne hs m f⟩
  rw [State.inInstance_of_eq hs]
  exact State.lift_answers h

/-- Settles O34: the block answers every instruction while the offset is in its range. -/
theorem refusedOnlyInTheOtherInstance : Obligations.RefusedOnlyInTheOtherInstance := by
  intro i s hoff
  cases i with
  | encU =>
    exact State.inInstance_answers_or_refused (f := fun b => .next (encEdge false b)) (by simp [Instr.availableIn])
      ⟨_, rfl⟩
  | encS =>
    exact State.inInstance_answers_or_refused (f := fun b => .next (encEdge true b)) (by simp [Instr.availableIn])
      ⟨_, rfl⟩
  | decU => exact State.inInstance_answers_or_refused (by simp [Instr.availableIn]) (decEdge_answers false hoff)
  | decS => exact State.inInstance_answers_or_refused (by simp [Instr.availableIn]) (decEdge_answers true hoff)
  | byteCont p => exact ⟨fun _ => State.lift_answers (readByte_answers (absorbCont_ne_noShift hoff) _ _), nofun⟩
  | byteFinal p => exact ⟨fun _ => State.lift_answers (readByte_answers (absorbFinal_ne_noShift hoff) _ _), nofun⟩

/-! ### Where `INVALID_DATA` arises -/

/-- R168, R167: a byte is rejected at the boundary only. -/
theorem eq_maxShift_of_absorb_eq_invalid {signed : Bool} {x : Byte} {acc : BitVec w} {off : Nat}
    (h : absorb signed x acc off = .invalid) : off = maxShift w := by
  rw [← atBoundary_iff]
  by_contra hoff
  cases hflag : contFlag x with
  | true =>
    rw [absorb_of_contFlag hflag, absorbCont, if_neg hoff] at h
    split at h <;> cases h
  | false =>
    rw [absorb_of_not_contFlag hflag, absorbFinal, if_neg hoff, absorbEnd] at h
    split at h
    · cases h
    · split at h
      · revert h
        cases mergeAt _ _ _ <;> simp [valueOrNoShift]
      · cases h

theorem decSrcTransfer_iff {b : Block w} :
    decSrcTransfer b = true ↔ b.ports.rst = false ∧ b.ports.decSrcValid = true ∧ b.dec.state = .recv := by
  simp [decSrcTransfer, and_assoc]

theorem decResTransfer_iff {b : Block w} :
    decResTransfer b = true ↔ b.ports.rst = false ∧ b.ports.decResReady = true ∧ b.dec.state = .done := by
  simp [decResTransfer, and_assoc]

/-- What an edge of `DEC` can answer in `D_RECV`: nothing happened, a read failed, or a byte was taken. -/
theorem decEdge_inv_of_recv {signed : Bool} {b c : Block w} (h : decEdge signed b = .next c)
    (hrecv : b.dec.state = .recv) :
    c = b ∨ (b.ports.decSrcErr = true ∧ c = raiseError .dec .ioError b) ∨
      (b.ports.decSrcValid = true ∧ b.ports.decSrcErr = false ∧
        applyAbsorbed (absorb signed b.ports.decSrcByte b.dec.acc b.dec.off.toNat)
          (takeByte b.ports.decSrcByte b) = .next c) := by
  cases htransfer : decSrcTransfer b with
  | true =>
    obtain ⟨hrst, hvalid, -⟩ := decSrcTransfer_iff.1 htransfer
    cases herr : b.ports.decSrcErr with
    | true =>
      rw [decEdge_of_fail signed hrst hvalid herr hrecv] at h
      cases h; exact .inr (.inl ⟨rfl, rfl⟩)
    | false => exact .inr (.inr ⟨hvalid, rfl, decEdge_of_byte signed hrst hvalid herr hrecv ▸ h⟩)
  | false =>
    have hres : decResTransfer b = false := by simp [decResTransfer, hrecv]
    simp only [decEdge, htransfer, hres, Bool.false_eq_true, if_false] at h
    cases h; exact .inl rfl

/-- In `D_RECV` only a byte that is rejected ends an edge with `INVALID_DATA`. -/
theorem decEdge_invalidData {signed : Bool} {b c : Block w} (h : decEdge signed b = .next c)
    (hrecv : b.dec.state = .recv) (hdone : c.dec.state = .done) (hstatus : c.dec.status = .invalidData) :
    b.dec.off.toNat = maxShift w ∧ b.ports.decSrcValid = true ∧ b.ports.decSrcErr = false ∧
      c.taken = b.taken ++ [b.ports.decSrcByte] := by
  obtain rfl | ⟨-, rfl⟩ | ⟨hvalid, herr, habsorb⟩ := decEdge_inv_of_recv h hrecv
  · rw [hrecv] at hdone; cases hdone
  · cases hstatus
  · obtain ⟨_, -, rfl⟩ | ⟨_, -, rfl⟩ | ⟨hinvalid, rfl⟩ := applyAbsorbed_eq_next.1 habsorb
    · rw [takeByte_dec, hrecv] at hdone; cases hdone
    · cases hstatus
    · exact ⟨eq_maxShift_of_absorb_eq_invalid hinvalid, hvalid, herr, rfl⟩

/-- Settles O50: the edge of `ENC` leaves what that of `DEC` reads, and a reset ends in `D_RECV`. -/
theorem invalidDataOnlyAtTheBoundary : Obligations.InvalidDataOnlyAtTheBoundary := by
  intro s b hstep hrecv hdone hstatus
  obtain ⟨-, rfl⟩ | ⟨-, hedge⟩ := step_eq_next_withBlock.1 hstep
  · cases hdone
  · simpa using decEdge_invalidData hedge (by simpa using hrecv) hdone hstatus

/-! ### The frame -/

/-- The block with what unit `DEC` owns replaced (10_state.md R27). -/
def putDec (d : DecUnit w) (k : List Byte) (r : List (OpResult (BitVec w))) (b : Block w) : Block w :=
  { b with dec := d, taken := k, decResults := r }

theorem applyAbsorbed_frame {a : Absorbed w} {b c : Block w} (h : applyAbsorbed a b = .next c) :
    ∃ d, c = putDec d b.taken b.decResults b := by
  obtain ⟨_, -, rfl⟩ | ⟨_, -, rfl⟩ | ⟨-, rfl⟩ := applyAbsorbed_eq_next.1 h <;> exact ⟨_, rfl⟩

/-- A byte is taken in `D_RECV` only. -/
theorem readByte_frame {x : Byte} {a : Absorbed w} {b c : Block w} (h : readByte x a b = .next c) :
    ∃ d k, c = putDec d k b.decResults b ∧ (k = b.taken ∨ (b.dec.state = .recv ∧ k = b.taken ++ [x])) := by
  obtain ⟨hrecv, h⟩ | ⟨-, rfl⟩ := readByte_eq_next.1 h
  · obtain ⟨d, hd⟩ := applyAbsorbed_frame h
    exact ⟨d, _, hd, .inr ⟨hrecv, rfl⟩⟩
  · exact ⟨_, _, rfl, .inl rfl⟩

/-- What an edge of `DEC` can answer in `D_DONE`: nothing happened, or the host took the result. -/
theorem decEdge_inv_of_done {signed : Bool} {b c : Block w} (h : decEdge signed b = .next c)
    (hdone : b.dec.state = .done) : c = b ∨ (b.ports.decResReady = true ∧ c = giveResult .dec b) := by
  have hsrc : decSrcTransfer b = false := by simp [decSrcTransfer, hdone]
  cases htransfer : decResTransfer b with
  | true =>
    obtain ⟨-, hready, -⟩ := decResTransfer_iff.1 htransfer
    simp only [decEdge, hsrc, htransfer, Bool.false_eq_true, if_false, if_true] at h
    cases h; exact .inr ⟨hready, rfl⟩
  | false =>
    simp only [decEdge, hsrc, htransfer, Bool.false_eq_true, if_false] at h
    cases h; exact .inl rfl

/-- What an edge of `DEC` leaves alone, and by what the bytes taken and the results can grow. -/
theorem decEdge_frame {signed : Bool} {b c : Block w} (h : decEdge signed b = .next c) :
    ∃ d k r, c = putDec d k r b ∧
      (k = b.taken ∨ (b.dec.state = .recv ∧ ∃ x, k = b.taken ++ [x])) ∧
      (r = b.decResults ∨ (b.dec.state = .done ∧ b.ports.decResReady = true ∧ ∃ x, r = b.decResults ++ [x])) := by
  cases hstate : b.dec.state with
  | recv =>
    obtain rfl | ⟨-, rfl⟩ | ⟨-, -, habsorb⟩ := decEdge_inv_of_recv h hstate
    · exact ⟨_, _, _, rfl, .inl rfl, .inl rfl⟩
    · exact ⟨_, _, _, rfl, .inl rfl, .inl rfl⟩
    · obtain ⟨d, hd⟩ := applyAbsorbed_frame habsorb
      exact ⟨d, _, _, hd, .inr ⟨rfl, _, rfl⟩, .inl rfl⟩
  | done =>
    obtain rfl | ⟨hready, rfl⟩ := decEdge_inv_of_done h hstate
    · exact ⟨_, _, _, rfl, .inl rfl, .inl rfl⟩
    · exact ⟨_, _, _, rfl, .inl rfl, .inr ⟨rfl, hready, _, rfl⟩⟩

/-- What an instruction of the decoder answers: the edge of the unit, or the read of the byte that is offered. -/
theorem exec_dec_inv {i : Instr} {s t : State} (hU : i ≠ .encU) (hS : i ≠ .encS) (h : exec i s = .next t) :
    ∃ b, t = s.withBlock b ∧ (decEdge s.signed s.block = .next b ∨ ∃ x a, readByte x a s.block = .next b) := by
  cases i with
  | encU => exact absurd rfl hU
  | encS => exact absurd rfl hS
  | decU | decS =>
    obtain ⟨hs, b, hb, rfl⟩ := State.inInstance_eq_next.1 h
    exact ⟨b, rfl, .inl (hs ▸ hb)⟩
  | byteCont p | byteFinal p =>
    obtain ⟨b, hb, rfl⟩ := State.lift_eq_next.1 h
    exact ⟨b, rfl, .inr ⟨_, _, hb⟩⟩

/-- Settles O33: the frames of the unit's edge and of a byte that is offered. -/
theorem decFrame : Obligations.DecFrame := by
  intro i s t hU hS h
  obtain ⟨b, rfl, hedge | ⟨x, a, hread⟩⟩ := exec_dec_inv hU hS h
  · obtain ⟨d, k, r, rfl, hk, hr⟩ := decEdge_frame hedge
    exact ⟨d, k, r, rfl, hk, hr⟩
  · obtain ⟨d, k, rfl, hk⟩ := readByte_frame hread
    exact ⟨d, k, _, rfl, hk.imp_right fun ⟨hrecv, hx⟩ => ⟨hrecv, x, hx⟩, .inl rfl⟩

end Sys2Proof.Machine
end

section
/-!
PROOF. 20_memory.md, sections 5 and 6: the steps of the two units at one edge commute (R66), and what has moved stays
moved (R62, 70 R242).
-/

namespace Sys2Proof.Machine

variable {w : Nat}

/-! ### The edge of a unit does not see what the other owns -/

theorem encWrite_putDec (signed : Bool) (d : DecUnit w) (k : List Byte) (r : List (OpResult (BitVec w))) (b : Block w) :
    encWrite signed (putDec d k r b) = putDec d k r (encWrite signed b) := by
  cases herr : b.ports.encSnkErr with
  | false => rw [encWrite_of_ok signed herr, encWrite_of_ok (b := putDec d k r b) signed herr]; rfl
  | true => rw [encWrite_of_fail signed herr, encWrite_of_fail (b := putDec d k r b) signed herr]; rfl

theorem encEdge_putDec (signed : Bool) (d : DecUnit w) (k : List Byte) (r : List (OpResult (BitVec w))) (b : Block w) :
    encEdge signed (putDec d k r b) = putDec d k r (encEdge signed b) := by
  have hin : encInTransfer (putDec d k r b) = encInTransfer b := rfl
  have hsnk : encSnkTransfer (putDec d k r b) = encSnkTransfer b := rfl
  have hres : encResTransfer (putDec d k r b) = encResTransfer b := rfl
  simp only [encEdge, hin, hsnk, hres, encWrite_putDec, apply_ite (putDec d k r)]
  rfl

section

variable (e : EncUnit w) (k : List Byte) (r : List (OpResult (BitVec 5)))

theorem applyAbsorbed_putEnc (a : Absorbed w) (b : Block w) :
    applyAbsorbed a (putEnc e k r b) = andThen (applyAbsorbed a b) fun c => .next (putEnc e k r c) := by
  cases a <;> rfl

theorem readByte_putEnc (x : Byte) (a : Absorbed w) (b : Block w) :
    readByte x a (putEnc e k r b) = andThen (readByte x a b) fun c => .next (putEnc e k r c) := by
  have hstate : (putEnc e k r b).dec.state = b.dec.state := rfl
  unfold readByte
  rw [hstate]
  cases b.dec.state with
  | recv => exact applyAbsorbed_putEnc e k r a (takeByte x b)
  | done => rfl

theorem decEdge_putEnc (signed : Bool) (b : Block w) :
    decEdge signed (putEnc e k r b) = andThen (decEdge signed b) fun c => .next (putEnc e k r c) := by
  have hsrc : decSrcTransfer (putEnc e k r b) = decSrcTransfer b := rfl
  have hres : decResTransfer (putEnc e k r b) = decResTransfer b := rfl
  have hread : srcRead (putEnc e k r b) = srcRead b := rfl
  simp only [decEdge, decRead, hsrc, hres, hread]
  split
  · cases srcRead b with
    | fail => rfl
    | byte x =>
      dsimp only
      split
      · exact readByte_putEnc e k r _ _ b
      · exact readByte_putEnc e k r _ _ b
  · split <;> rfl

end

/-- R66 on the block: either order ends in the same block, or in the same refusal. -/
theorem decEdge_encEdge_comm (signed : Bool) (b : Block w) :
    decEdge signed (encEdge signed b) = andThen (decEdge signed b) fun c => .next (encEdge signed c) := by
  obtain ⟨e, k, r, henc, -⟩ := encEdge_frame signed b
  rw [henc, decEdge_putEnc]
  cases hdec : decEdge signed b with
  | next c =>
    obtain ⟨d, k', r', rfl, -⟩ := decEdge_frame hdec
    rw [andThen_next, andThen_next, encEdge_putDec, henc]; rfl
  | fault f => rfl
  | refused f => rfl

/-- Settles O36: the machine's two orders are the block's. -/
theorem unitStepsCommute : Obligations.UnitStepsCommute := by
  intro s
  have hencFirst : andThen (exec s.encOperation s) (fun t => exec t.decOperation t) =
      s.lift (decEdge s.signed (encEdge s.signed s.block)) := by
    rw [exec_encOperation]
    exact exec_decOperation (s.withBlock (encEdge s.signed s.block))
  rw [hencFirst, exec_decOperation, decEdge_encEdge_comm]
  cases decEdge s.signed s.block with
  | next c => exact (exec_encOperation (s.withBlock c)).symm
  | fault f => rfl
  | refused f => rfl

/-! ### The records -/

theorem exists_suffix_of_eq_or_concat {α : Type} {k l : List α} (h : k = l ∨ ∃ x, k = l ++ [x]) :
    ∃ m, k = l ++ m ∧ m.length ≤ 1 := by
  obtain rfl | ⟨x, rfl⟩ := h
  · exact ⟨[], by simp⟩
  · exact ⟨[x], rfl, le_rfl⟩

/-- Settles O45: a reset leaves the records, and at any other edge each unit's frame says by what its own can grow. -/
theorem stepOnlyAddsToTheRecords : Obligations.StepOnlyAddsToTheRecords := by
  intro s t hstep
  obtain ⟨b, rfl, ⟨-, rfl⟩ | ⟨-, hedge⟩⟩ := step_eq_next.1 hstep
  · exact ⟨_, rfl, ⟨[], by simp⟩, ⟨[], by simp⟩, ⟨[], by simp⟩, ⟨[], by simp⟩⟩
  · obtain ⟨e, k, r, henc, hk, hr⟩ := encEdge_frame s.signed (samplePorts s.block)
    obtain ⟨d, k', r', rfl, hk', hr'⟩ := decEdge_frame hedge
    rw [encEdge_taken] at hk'
    rw [encEdge_decResults] at hr'
    rw [henc]
    exact ⟨_, rfl, exists_suffix_of_eq_or_concat (hk.imp_right fun ⟨_, _, hx⟩ => ⟨_, hx⟩),
      exists_suffix_of_eq_or_concat (hk'.imp_right And.right),
      exists_suffix_of_eq_or_concat (hr.imp_right fun ⟨_, _, hx⟩ => hx),
      exists_suffix_of_eq_or_concat (hr'.imp_right fun ⟨_, _, hx⟩ => hx)⟩

end Sys2Proof.Machine
end

section
/-!
PROOF. 10_state.md, section 7: the invariant of R37, for each unit at its edge and for the machine at every step, that
no step stops (70 R262), and what the bytes written are in `E_EMIT`.
-/

namespace Sys2Proof.Machine

variable {w : Nat} {signed : Bool}

/-! ### Unit `ENC` -/

theorem EncodesTo.unique {x : BitVec w} {as bs : List Byte} (has : EncodesTo signed x as)
    (hbs : EncodesTo signed x bs) : as = bs := by
  induction has generalizing bs with
  | last hlast =>
    cases hbs with
    | last => rfl
    | more hmore => rw [hlast] at hmore; cases hmore
  | more hmore rest ih =>
    cases hbs with
    | last hlast => rw [hlast] at hmore; cases hmore
    | more _ rest' => rw [ih rest']

/-- The rest of the encoding is the encoding of the rest (R131). -/
theorem enc_of_not_last (hw : 1 ≤ w) {x : BitVec w} (h : isLast signed x = false) :
    enc signed x = encByte signed x :: enc signed (rsh signed x 7) :=
  (enc_encodesTo hw signed x).unique (.more h (enc_encodesTo hw signed (rsh signed x 7)))

/-- The count of R22 does not wrap where there is room for a byte, `N_ENC_MAX` being at most 19. -/
theorem toNat_cnt_add_one (hw : w ≤ 128) {cnt : BitVec 5} (h : cnt.toNat + 1 ≤ nEncMax w) :
    (cnt + 1#5).toNat = cnt.toNat + 1 := by
  have hmax : nEncMax w < 2 ^ 5 := by unfold nEncMax; omega
  rw [BitVec.toNat_add]
  exact Nat.mod_eq_of_lt (h.trans_lt hmax)

theorem encInv_of_reset {b : Block w} (henc : b.enc = EncUnit.reset w)
    (hresults : ∀ r ∈ b.encResults, r ≠ .invalidData) : EncInv signed b := by
  rw [EncInv, henc]
  exact ⟨nofun, hresults, Nat.zero_le _, nofun, nofun⟩

theorem encInv_congr {b c : Block w} (henc : c.enc = b.enc) (hresults : c.encResults = b.encResults)
    (h : EncInv signed b) : EncInv signed c := by
  rw [EncInv, henc, hresults]; exact h

theorem encWrite_encInv (hw : supportedWidth w = true) {b : Block w} (h : EncInv signed b)
    (hemit : b.enc.state = .emit) : EncInv signed (encWrite signed b) := by
  obtain ⟨hpos, hle⟩ := bounds_of_supportedWidth hw
  obtain ⟨hstatus, hresults, hmax, hroom, -⟩ := h
  have hlen := hroom hemit
  have hone := (length_enc_bounds hpos signed b.enc.val).1
  have hcnt := toNat_cnt_add_one hle (cnt := b.enc.cnt) (by omega)
  cases herr : b.ports.encSnkErr with
  | true =>
    rw [encWrite_of_fail signed herr]
    exact ⟨nofun, hresults, hmax, nofun, nofun⟩
  | false =>
    rw [encWrite_of_ok signed herr, EncInv]
    obtain ⟨-, hadvance⟩ | ⟨hmore, hadvance⟩ := encAdvance_cases signed b.enc
    · rw [hadvance]
      exact ⟨nofun, hresults, hcnt ▸ by omega, nofun, fun _ _ => hcnt ▸ by omega⟩
    · rw [enc_of_not_last hpos hmore, List.length_cons] at hlen
      have hrest : (b.enc.cnt + 1#5).toNat + (enc signed (rsh signed b.enc.val 7)).length ≤ nEncMax w := by omega
      rw [hadvance]
      exact ⟨hstatus, hresults, hcnt ▸ by omega, fun _ => hrest, by simp [hemit]⟩

theorem encEdge_encInv (hw : supportedWidth w = true) {b : Block w} (h : EncInv signed b) :
    EncInv signed (encEdge signed b) := by
  obtain ⟨-, hedge⟩ | ⟨hsnk, hedge⟩ | ⟨-, hedge⟩ | ⟨-, -, -, hedge⟩ := encEdge_cases signed b
  · obtain ⟨hpos, -⟩ := bounds_of_supportedWidth hw
    obtain ⟨hstatus, hresults, -, -, -⟩ := h
    have hlen := (length_enc_bounds hpos signed b.ports.encInValue).2
    rw [hedge]
    exact ⟨hstatus, hresults, Nat.zero_le _, fun _ => (Nat.zero_add _).trans_le hlen, nofun⟩
  · obtain ⟨-, -, hemit⟩ := encSnkTransfer_iff.1 hsnk
    exact hedge ▸ encWrite_encInv hw h hemit
  · obtain ⟨hstatus, hresults, hmax, -, -⟩ := h
    have hresult : resultOf b.enc.status b.enc.cnt ≠ .invalidData := by
      rw [resultOf_of_ne_invalidData hstatus]; split <;> nofun
    rw [hedge]
    exact ⟨hstatus, by simpa [or_imp, forall_and] using ⟨hresults, hresult⟩, hmax, nofun, nofun⟩
  · rw [hedge]; exact h

/-! ### Unit `DEC` -/

theorem unsignedReading_concat (bs : List Byte) (x : Byte) :
    unsignedReading (bs ++ [x]) = unsignedReading bs + 2 ^ (7 * bs.length) * (payload x).toNat := by
  induction bs with
  | nil => simp [unsignedReading]
  | cons y bs ih =>
    rw [List.cons_append, unsignedReading, ih, unsignedReading, List.length_cons, Nat.mul_succ, pow_add]
    ring

/-- The part of the invariant that speaks of the decode in flight. -/
structure DecInFlight (b : Block w) : Prop where
  acc_lt : b.dec.acc.toNat < 2 ^ b.dec.off.toNat
  taken : b.dec.off.toNat / 7 ≤ b.taken.length
  flags : ∀ x ∈ inFlight b, contFlag x = true
  acc_eq : b.dec.acc.toNat = unsignedReading (inFlight b)

theorem decInv_iff {b : Block w} : DecInv b ↔ OffsetInRange b.dec ∧ (b.dec.state = .recv → DecInFlight b) := by
  constructor
  · rintro ⟨hmod, hmax, hflight⟩
    refine ⟨⟨hmod, hmax⟩, fun hrecv => ?_⟩
    obtain ⟨hlt, htaken, hflags, heq⟩ := hflight hrecv
    exact ⟨hlt, htaken, hflags, heq⟩
  · rintro ⟨⟨hmod, hmax⟩, hflight⟩
    exact ⟨hmod, hmax, fun hrecv => ⟨(hflight hrecv).acc_lt, (hflight hrecv).taken, (hflight hrecv).flags,
      (hflight hrecv).acc_eq⟩⟩

theorem inFlight_of_off_zero {b : Block w} (h : b.dec.off = 0#8) : inFlight b = [] := by
  simp [inFlight, h]

/-- A decoder that is about to begin has no byte in flight. -/
theorem decInv_of_fresh {b : Block w} (h : DecFresh b) : DecInv b := by
  obtain ⟨-, hacc, hoff⟩ := h
  have hnil := inFlight_of_off_zero hoff
  rw [decInv_iff]
  refine ⟨⟨by simp [hoff], by simp [hoff]⟩, fun _ => ⟨?_, ?_, ?_, ?_⟩⟩
  · simp [hacc, hoff]
  · simp [hoff]
  · simp [hnil]
  · rw [hnil, hacc]; simp [unsignedReading]

theorem decInv_congr {b c : Block w} (hdec : c.dec = b.dec) (htaken : c.taken = b.taken) (h : DecInv b) : DecInv c := by
  rw [DecInv, inFlight, hdec, htaken]; exact h

/-- A decode goes on only with a continuation byte below the boundary (R165, R168). -/
theorem absorb_eq_more {x : Byte} {acc acc1 : BitVec w} {off : Nat} (hoff : off ≤ maxShift w)
    (h : absorb signed x acc off = .more acc1) :
    contFlag x = true ∧ off < maxShift w ∧ acc1 = acc ||| zextPayload w (payload x) <<< off := by
  cases hflag : contFlag x with
  | true =>
    rw [absorb_of_contFlag hflag] at h
    have hlt := lt_maxShift_of_absorbCont_eq_more hoff h
    rw [absorbCont_below hlt] at h
    cases h
    exact ⟨rfl, hlt, rfl⟩
  | false =>
    rw [absorb_of_not_contFlag hflag] at h
    exact absurd h (absorbFinal_ne_more hoff)

/-- The bytes in flight after one more. -/
theorem inFlight_takeByte {b c : Block w} {x : Byte} (hoff : c.dec.off.toNat = b.dec.off.toNat + 7)
    (htaken : c.taken = b.taken ++ [x]) (hle : b.dec.off.toNat / 7 ≤ b.taken.length) :
    inFlight c = inFlight b ++ [x] := by
  have hstart : (b.taken ++ [x]).length - c.dec.off.toNat / 7 = b.taken.length - b.dec.off.toNat / 7 := by
    rw [hoff, List.length_append, List.length_singleton]; omega
  rw [inFlight, htaken, hstart, List.drop_append_of_le_length (Nat.sub_le _ _), inFlight]

theorem length_inFlight {b : Block w} (hle : b.dec.off.toNat / 7 ≤ b.taken.length) :
    (inFlight b).length = b.dec.off.toNat / 7 := by
  rw [inFlight, List.length_drop]; omega

/-- Below the boundary there is room for 7 in `d_off` (R23). -/
theorem toNat_off_add_seven (hw : w ≤ 128) {d : DecUnit w} (hoff : OffsetInRange d) (hlt : d.off.toNat < maxShift w) :
    (d.off + 7#8).toNat = d.off.toNat + 7 := by
  have hroom := add_seven_le_maxShift hoff.mod_seven hlt
  have hwidth := maxShift_le w
  rw [BitVec.toNat_add, BitVec.toNat_ofNat]; omega

/-- R165 in the invariant: a continuation byte below the boundary joins those in flight. -/
theorem DecInFlight.more {b c : Block w} (hw : w ≤ 128) (hoff : OffsetInRange b.dec) (h : DecInFlight b) {x : Byte}
    {acc : BitVec w} (habsorb : absorb signed x b.dec.acc b.dec.off.toNat = .more acc)
    (hdec : c.dec = { b.dec with acc := acc, off := b.dec.off + 7#8 }) (htaken : c.taken = b.taken ++ [x]) :
    DecInFlight c := by
  obtain ⟨hflag, hlt, rfl⟩ := absorb_eq_more hoff.le_maxShift habsorb
  have hmod := hoff.mod_seven
  have hroom : b.dec.off.toNat + 7 ≤ w := (add_seven_le_maxShift hmod hlt).trans (maxShift_le w)
  have hoffc : c.dec.off.toNat = b.dec.off.toNat + 7 := by rw [hdec, toNat_off_add_seven hw hoff hlt]
  have hflight := inFlight_takeByte hoffc htaken h.taken
  have hbits : 7 * (b.dec.off.toNat / 7) = b.dec.off.toNat := by omega
  refine ⟨?_, ?_, ?_, ?_⟩
  · rw [hoffc, hdec]
    exact toNat_or_zextPayload_lt h.acc_lt hroom (payload x)
  · have := h.taken
    rw [hoffc, htaken, List.length_append, List.length_singleton]; omega
  · rw [hflight]
    simpa [or_imp, forall_and] using ⟨h.flags, hflag⟩
  · rw [hflight, unsignedReading_concat, length_inFlight h.taken, hbits, ← h.acc_eq, hdec]
    exact toNat_or_zextPayload h.acc_lt hroom (payload x)

theorem decEdge_decInv (hw : w ≤ 128) {b c : Block w} (h : DecInv b) (hedge : decEdge signed b = .next c) :
    DecInv c := by
  obtain ⟨hoff, hflight⟩ := decInv_iff.1 h
  refine decInv_iff.2 ⟨decEdge_offsetInRange hw hoff hedge, fun hrecvc => ?_⟩
  cases hstate : b.dec.state with
  | recv =>
    obtain rfl | ⟨-, rfl⟩ | ⟨-, -, habsorb⟩ := decEdge_inv_of_recv hedge hstate
    · exact hflight hstate
    · cases hrecvc
    · obtain ⟨acc, hmore, rfl⟩ | ⟨_, -, rfl⟩ | ⟨-, rfl⟩ := applyAbsorbed_eq_next.1 habsorb
      · exact (hflight hstate).more hw hoff hmore rfl rfl
      · cases hrecvc
      · cases hrecvc
  | done =>
    obtain rfl | ⟨-, rfl⟩ := decEdge_inv_of_done hedge hstate
    · rw [hstate] at hrecvc; cases hrecvc
    · exact (decInv_iff.1 (decInv_of_fresh ⟨rfl, rfl, rfl⟩)).2 rfl

/-! ### The machine -/

/-- Settles O46: after reset the encoder is idle and the decoder about to begin. -/
theorem invariantHoldsAtReset : Obligations.InvariantHoldsAtReset :=
  fun _ _ hw => ⟨hw, encInv_of_reset rfl nofun, decInv_of_fresh ⟨rfl, rfl, rfl⟩⟩

/-- Settles O47: a reset edge starts both units afresh, and at any other edge each unit keeps its part and leaves the
other's. -/
theorem stepKeepsTheInvariant : Obligations.StepKeepsTheInvariant := by
  intro s t hinv hstep
  obtain ⟨hw, henc, hdec⟩ := hinv
  obtain ⟨c, rfl, ⟨-, rfl⟩ | ⟨-, hedge⟩⟩ := step_eq_next.1 hstep
  · obtain ⟨-, hresults, -, -, -⟩ := henc
    exact ⟨hw, encInv_of_reset rfl hresults, decInv_of_fresh ⟨rfl, rfl, rfl⟩⟩
  · have hsame := decEdge_sameButDec hedge
    have henc' : EncInv s.signed (encEdge s.signed (samplePorts s.block)) :=
      encEdge_encInv hw (encInv_congr rfl rfl henc)
    have hdec' : DecInv (encEdge s.signed (samplePorts s.block)) :=
      decInv_congr (encEdge_dec _ _) (encEdge_taken _ _) hdec
    exact ⟨hw, encInv_congr hsame.enc hsame.encResults henc',
      decEdge_decInv (bounds_of_supportedWidth hw).2 hdec' hedge⟩

/-- Settles O48: a reset edge answers, and so does any other, with the offset in its range. -/
theorem invariantStepAnswersNext : Obligations.InvariantStepAnswersNext := by
  rintro s ⟨hw, -, hmod, hmax, -⟩
  cases hrst : (nextPorts s.block).rst with
  | true => exact ⟨_, step_of_rst hrst⟩
  | false =>
    obtain ⟨c, hstep, -⟩ := step_answers (bounds_of_supportedWidth hw).2 s.signed ⟨hmod, hmax⟩ hrst
    exact ⟨_, hstep⟩

/-! ### Progress in `E_EMIT` -/

theorem enc_of_last (hw : 1 ≤ w) {x : BitVec w} (h : isLast signed x = true) : enc signed x = [encByte signed x] :=
  (enc_encodesTo hw signed x).unique (.last h)

/-- From `b`, with `written` after `before` in the sink, to `c`: more of `bytes` is written and `enc(e_val)` is the rest
of it, or all of it is written, or a write has failed. -/
def EncProgress (signed : Bool) (before written bytes : List Byte) (b c : Block w) : Prop :=
  (c.enc.state = .emit ∧ ∃ more, c.sink = before ++ more ∧ more ++ enc signed c.enc.val = bytes ∧
      c.enc.cnt.toNat = more.length) ∨
    (c.enc.state = .done ∧ c.enc.status = .ok ∧ c.sink = before ++ bytes ∧ c.enc.cnt.toNat = bytes.length) ∨
    (c.enc.state = .done ∧ c.enc.status = .ioError ∧ b.ports.encSnkErr = true ∧ c.enc.cnt = b.enc.cnt ∧
      before ++ written <+: c.sink ∧ c.sink.length ≤ (before ++ written).length + 1)

theorem encWrite_progress (hw : supportedWidth w = true) {b : Block w} {before written bytes : List Byte}
    (hinv : EncInv signed b) (hemit : b.enc.state = .emit) (hsink : b.sink = before ++ written)
    (hbytes : written ++ enc signed b.enc.val = bytes) (hcnt : b.enc.cnt.toNat = written.length) :
    EncProgress signed before written bytes b (encWrite signed b) := by
  obtain ⟨hpos, hle⟩ := bounds_of_supportedWidth hw
  obtain ⟨-, -, -, hroom, -⟩ := hinv
  have hlen := hroom hemit
  have hone := (length_enc_bounds hpos signed b.enc.val).1
  have hnext : (b.enc.cnt + 1#5).toNat = written.length + 1 := by
    rw [toNat_cnt_add_one hle (by omega), hcnt]
  cases herr : b.ports.encSnkErr with
  | true =>
    rw [encWrite_of_fail signed herr]
    refine .inr (.inr ⟨rfl, rfl, herr, rfl, ?_⟩)
    cases b.ports.snkKeeps <;> simp [hsink, Nat.add_assoc]
  | false =>
    rw [encWrite_of_ok signed herr]
    obtain ⟨hlast, hadvance⟩ | ⟨hmore, hadvance⟩ := encAdvance_cases signed b.enc
    · rw [enc_of_last hpos hlast] at hbytes
      rw [hadvance]
      exact .inr (.inl ⟨rfl, rfl, by simp [hsink, ← hbytes], by simpa [← hbytes] using hnext⟩)
    · rw [enc_of_not_last hpos hmore] at hbytes
      rw [hadvance]
      exact .inl ⟨hemit, written ++ [encByte signed b.enc.val], by simp [hsink], by simpa using hbytes,
        by simpa using hnext⟩

/-- Settles O49: the edge is a write, or the encoder waits. -/
theorem encoderProgress : Obligations.EncoderProgress := by
  rintro ⟨w, signed, b⟩ v before written ⟨hw, hinv, hmod, hmax, -⟩ hemit hsink hbytes hcnt hrst
  obtain ⟨c, hstep, -, hsame⟩ := step_answers (bounds_of_supportedWidth hw).2 signed ⟨hmod, hmax⟩ hrst
  refine ⟨c, hstep, ?_⟩
  rw [hsame.enc, hsame.sink]
  cases hready : (nextPorts b).encSnkReady with
  | true =>
    rw [encEdge_of_write (b := samplePorts b) signed hrst hready hemit]
    exact encWrite_progress hw (encInv_congr rfl rfl hinv) hemit hsink hbytes hcnt
  | false =>
    have hwait : encEdge signed (samplePorts b) = samplePorts b :=
      encEdge_of_wait signed (fun h => nomatch hemit.symm.trans h) (fun _ => hready) fun h => nomatch hemit.symm.trans h
    rw [hwait]
    exact .inl ⟨hemit, written, hsink, hbytes, hcnt⟩

end Sys2Proof.Machine
end

section
/-!
PROOF. 41_encode.md R136: the first write that fails ends the encode, edge by edge.
-/

namespace Sys2Proof.Machine

variable {w : Nat} {signed : Bool}

/-- The byte on the port is the first of those that the encoding has left. -/
theorem EncodesTo.take_one {x : BitVec w} {bs : List Byte} (h : EncodesTo signed x bs) :
    bs.take 1 = [encByte signed x] := by
  cases h <;> rfl

theorem EncOwes.state_of_ne_nil {e : EncUnit w} {todo : List Byte} (h : EncOwes signed e todo) (hne : todo ≠ []) :
    e.state = .emit ∧ EncodesTo signed e.val todo := by
  cases h with
  | emit hemit hbs => exact ⟨hemit, hbs⟩
  | done => exact absurd rfl hne

/-- From `b` to `c` the unit waited: its registers and its records are the same. -/
structure EncHeld (b c : Block w) : Prop where
  enc : c.enc = b.enc
  sink : c.sink = b.sink
  encResults : c.encResults = b.encResults

/-- In `E_DONE` the unit waits until the host takes the result. -/
theorem run_encHeld (hw : w ≤ 128) {edges : List (PortIn w)} {b : Block w} (hoff : OffsetInRange b.dec)
    (hdone : b.enc.state = .done) (hagenda : b.agenda = edges)
    (hedges : ∀ p ∈ edges, p.rst = false ∧ p.encResReady = false) :
    ∃ c, run edges.length ⟨w, signed, b⟩ = .next ⟨w, signed, c⟩ ∧ EncHeld b c := by
  induction edges generalizing b with
  | nil => exact ⟨b, rfl, rfl, rfl, rfl⟩
  | cons p edges ih =>
    obtain ⟨⟨hrst, hres⟩, hlater⟩ := List.forall_mem_cons.1 hedges
    obtain rfl : nextPorts b = p := nextPorts_of_cons b p _ hagenda
    obtain ⟨c, hstep, hoffc, hsame⟩ := step_answers hw signed hoff hrst
    rw [encEdge_of_wait (b := samplePorts b) signed (by simp [hdone]) (by simp [hdone]) (fun _ => hres)] at hsame
    have hagendac : c.agenda = edges := by rw [hsame.agenda, samplePorts_agenda, hagenda]; rfl
    obtain ⟨d, hrun, hheld⟩ := ih hoffc (by rw [hsame.enc]; exact hdone) hagendac hlater
    refine ⟨d, ?_, hheld.enc.trans hsame.enc, hheld.sink.trans hsame.sink, hheld.encResults.trans hsame.encResults⟩
    rw [List.length_cons, run, hstep, andThen_next, hrun]

/-- A write that fails with `bs` still to be written: none of it is, or its first byte as the sink chooses (log 7). -/
theorem encWrite_of_fail_owing {bs : List Byte} {b : Block w} (herr : b.ports.encSnkErr = true)
    (hbs : EncodesTo signed b.enc.val bs) :
    encWrite signed b = { b with
      enc := { b.enc with status := .ioError, state := .done }
      sink := b.sink ++ bs.take (if b.ports.snkKeeps then 1 else 0) } := by
  rw [encWrite_of_fail signed herr]
  cases b.ports.snkKeeps <;> simp [hbs.take_one]

/-- Settles O53: bytes are owed after the first `k`, so the unit is in `E_EMIT` when the write fails; in `E_DONE` it
waits. -/
theorem encodeStopsAtTheFailedWrite : Obligations.EncodeStopsAtTheFailedWrite := by
  rintro ⟨w, signed, b⟩ p0 pf mid rest ⟨hsupported, -, hmod, hmax, -⟩ hidle hagenda hrst0 hvalid hmid hleft hrstf hready
    herr hrest k bytes
  obtain ⟨-, hle⟩ := bounds_of_supportedWidth hsupported
  obtain ⟨c, hrun, hoff, hagendac, hwrote⟩ :=
    run_accept_encWrote (signed := signed) hsupported ⟨hmod, hmax⟩ hidle hagenda hrst0 hvalid hmid
  obtain ⟨howes, hsink, -, hresults⟩ := hwrote
  obtain rfl : nextPorts c = pf := nextPorts_of_cons c pf rest hagendac
  obtain ⟨hemit, hbs⟩ := howes.state_of_ne_nil (by simpa using hleft)
  obtain ⟨d, hstep, hoffd, hsame⟩ := step_answers hle signed hoff hrstf
  rw [encEdge_of_write (b := samplePorts c) signed hrstf hready hemit,
    encWrite_of_fail_owing (b := samplePorts c) herr hbs] at hsame
  have hagendad : d.agenda = rest := by rw [hsame.agenda, samplePorts_agenda, hagendac]; rfl
  obtain ⟨e, hrune, hheld⟩ := run_encHeld hle (signed := signed) hoffd (by rw [hsame.enc]) hagendad hrest
  refine ⟨e, ?_, ?_, ?_, ?_, ?_⟩
  · rw [show mid.length + rest.length + 2 = 1 + mid.length + (1 + rest.length) by omega, run_add, hrun, andThen_next,
      run_add, run, hstep, andThen_next, run, andThen_next, hrune]
    rfl
  · rw [hheld.enc, hsame.enc]
  · rw [hheld.enc, hsame.enc]
  · rw [hheld.encResults, hsame.encResults]; exact hresults
  · rw [hheld.sink, hsame.sink]
    rw [samplePorts_sink, samplePorts_ports, hsink, encAccept_sink, List.append_assoc, ← List.take_add]
    cases (nextPorts c).snkKeeps <;> rfl

end Sys2Proof.Machine
end

section
/-!
PROOF. 42_decode.md, section 5: the steps of unit `DEC` run the loop of `dec` (R161), edge by edge.
-/

namespace Sys2Proof.Machine

variable {w : Nat} {signed : Bool}

/-! ### The answers of the source -/

theorem sourceAnswers_cons_of_not_valid {p : PortIn w} (h : p.decSrcValid = false) (edges : List (PortIn w)) :
    sourceAnswers (p :: edges) = sourceAnswers edges := by
  simp [sourceAnswers, h]

theorem sourceAnswers_cons_of_fail {p : PortIn w} (h : p.decSrcValid = true) (herr : p.decSrcErr = true)
    (edges : List (PortIn w)) : sourceAnswers (p :: edges) = .fail :: sourceAnswers edges := by
  simp [sourceAnswers, h, herr]

theorem sourceAnswers_cons_of_byte {p : PortIn w} (h : p.decSrcValid = true) (herr : p.decSrcErr = false)
    (edges : List (PortIn w)) : sourceAnswers (p :: edges) = .byte p.decSrcByte :: sourceAnswers edges := by
  simp [sourceAnswers, h, herr]

/-! ### One edge of the decoder -/

/-- With the offset in its range an edge without reset answers what unit `DEC` does at it. -/
theorem step_answers_decEdge (hw : w ≤ 128) (signed : Bool) {b : Block w} (hoff : OffsetInRange b.dec)
    (hrst : (nextPorts b).rst = false) :
    ∃ c, step ⟨w, signed, b⟩ = .next ⟨w, signed, c⟩ ∧ OffsetInRange c.dec ∧ c.agenda = b.agenda.tail ∧
      decEdge signed (encEdge signed (samplePorts b)) = .next c := by
  obtain ⟨c, hstep, hoffc, hsame⟩ := step_answers hw signed hoff hrst
  have hinv := (step_eq_next_withBlock (s := ⟨w, signed, b⟩)).1 hstep
  obtain ⟨hreset, -⟩ | ⟨-, hedge⟩ := hinv
  · rw [hrst] at hreset; cases hreset
  · exact ⟨c, hstep, hoffc, hsame.agenda.trans (encEdge_agenda _ _), hedge⟩

/-- From `b` to `c` the unit waited: its registers and the bytes taken are the same. -/
structure DecHeld (b c : Block w) : Prop where
  dec : c.dec = b.dec
  taken : c.taken = b.taken

/-- Unit `ENC` and the sampling of the ports leave the decoder where it is. -/
theorem decHeld_encEdge (signed : Bool) (b : Block w) : DecHeld b (encEdge signed (samplePorts b)) :=
  ⟨encEdge_dec _ _, encEdge_taken _ _⟩

/-- In `D_DONE` the unit waits until the host takes the result. -/
theorem run_decHeld (hw : w ≤ 128) {edges : List (PortIn w)} {b : Block w} (hoff : OffsetInRange b.dec)
    (hdone : b.dec.state = .done) (hagenda : b.agenda = edges)
    (hedges : ∀ p ∈ edges, p.rst = false ∧ p.decResReady = false) :
    ∃ c, run edges.length ⟨w, signed, b⟩ = .next ⟨w, signed, c⟩ ∧ DecHeld b c := by
  induction edges generalizing b with
  | nil => exact ⟨b, rfl, rfl, rfl⟩
  | cons p edges ih =>
    obtain ⟨⟨hrst, hres⟩, hlater⟩ := List.forall_mem_cons.1 hedges
    obtain rfl : nextPorts b = p := nextPorts_of_cons b p _ hagenda
    obtain ⟨c, hstep, hoffc, hagendac, hedge⟩ := step_answers_decEdge hw signed hoff hrst
    rw [decEdge_of_wait signed (by simp [hdone]) (by simp [hres])] at hedge
    cases hedge
    have hheldc := decHeld_encEdge signed b
    rw [hagenda, List.tail_cons] at hagendac
    obtain ⟨d, hrun, hheld⟩ := ih hoffc (by rw [hheldc.dec, hdone]) hagendac hlater
    refine ⟨d, ?_, hheld.dec.trans hheldc.dec, hheld.taken.trans hheldc.taken⟩
    rw [List.length_cons, run, hstep, andThen_next, hrun]

/-! ### The loop -/

/-- Unit `DEC` stands where `dec` does, `base` bytes having been taken before the operation. -/
def DecStands (base : Nat) (b : Block w) (r : DecRun w) : Prop :=
  match r with
  | .finished r n => b.dec.state = .done ∧ b.dec.status = statusOf r ∧ resultOf b.dec.status b.dec.acc = r ∧
      b.taken.length = base + n
  | .waiting acc off n => b.dec.state = .recv ∧ b.dec.acc = acc ∧ b.dec.off.toNat = off ∧ b.taken.length = base + n
  | .noShift => False

theorem decStands_finished_iff {base n : Nat} {b : Block w} {r : OpResult (BitVec w)} :
    DecStands base b (.finished r n) ↔ b.dec.state = .done ∧ b.dec.status = statusOf r ∧
      resultOf b.dec.status b.dec.acc = r ∧ b.taken.length = base + n := Iff.rfl

/-- The operation has ended: `b` stands at `r`, and so does every later block. -/
theorem run_decStands_of_done (hw : w ≤ 128) {edges : List (PortIn w)} {b : Block w} (hoff : OffsetInRange b.dec)
    (hagenda : b.agenda = edges) (hedges : ∀ p ∈ edges, p.rst = false ∧ p.decResReady = false) {base n : Nat}
    {r : OpResult (BitVec w)} (hstands : DecStands base b (.finished r n)) :
    ∃ c, run edges.length ⟨w, signed, b⟩ = .next ⟨w, signed, c⟩ ∧ DecStands base c (.finished r n) := by
  have hdone : b.dec.state = .done := (decStands_finished_iff.1 hstands).1
  obtain ⟨c, hrun, hheld⟩ := run_decHeld (signed := signed) hw hoff hdone hagenda hedges
  refine ⟨c, hrun, ?_⟩
  rw [decStands_finished_iff, hheld.dec, hheld.taken]; exact hstands

/-- The decoder in `D_RECV` with `n` bytes of the operation taken runs the loop of `dec` from there. -/
theorem run_decStands (hw : w ≤ 128) {edges : List (PortIn w)} {b : Block w} {base n : Nat}
    (hoff : OffsetInRange b.dec) (hrecv : b.dec.state = .recv) (htaken : b.taken.length = base + n)
    (hagenda : b.agenda = edges) (hedges : ∀ p ∈ edges, p.rst = false ∧ p.decResReady = false) :
    ∃ c, run edges.length ⟨w, signed, b⟩ = .next ⟨w, signed, c⟩ ∧
      DecStands base c (decFrom signed (sourceAnswers edges) b.dec.acc b.dec.off.toNat n) := by
  induction edges generalizing b n with
  | nil => exact ⟨b, rfl, hrecv, rfl, rfl, htaken⟩
  | cons p edges ih =>
    obtain ⟨⟨hrst, -⟩, hlater⟩ := List.forall_mem_cons.1 hedges
    obtain rfl : nextPorts b = p := nextPorts_of_cons b p _ hagenda
    obtain ⟨c, hstep, hoffc, hagendac, hedge⟩ := step_answers_decEdge hw signed hoff hrst
    rw [hagenda, List.tail_cons] at hagendac
    rw [List.length_cons, run, hstep, andThen_next]
    have hheld := decHeld_encEdge signed b
    have hrecv' : (encEdge signed (samplePorts b)).dec.state = .recv := by rw [hheld.dec, hrecv]
    have hports : (encEdge signed (samplePorts b)).ports = nextPorts b := encEdge_ports _ _
    cases hvalid : (nextPorts b).decSrcValid with
    | false =>
      rw [sourceAnswers_cons_of_not_valid hvalid]
      rw [decEdge_of_wait signed (by simp [hvalid]) (by simp [hrecv])] at hedge
      cases hedge
      have hrest := ih hoffc hrecv' (by rw [hheld.taken, htaken]) hagendac hlater
      rwa [hheld.dec] at hrest
    | true =>
      cases herr : (nextPorts b).decSrcErr with
      | true =>
        rw [sourceAnswers_cons_of_fail hvalid herr]
        rw [decEdge_of_fail signed (by simp [hrst]) (by simp [hvalid]) (by simp [herr]) hrecv'] at hedge
        cases hedge
        exact run_decStands_of_done hw hoffc hagendac hlater ⟨rfl, rfl, rfl, by simp [htaken]⟩
      | false =>
        rw [sourceAnswers_cons_of_byte hvalid herr, decFrom]
        rw [decEdge_of_byte signed (by simp [hrst]) (by simp [hvalid]) (by simp [herr]) hrecv', hports,
          hheld.dec] at hedge
        cases habsorb : absorb signed (nextPorts b).decSrcByte b.dec.acc b.dec.off.toNat with
        | more acc =>
          rw [habsorb] at hedge
          cases hedge
          obtain ⟨-, hlt, -⟩ := absorb_eq_more hoff.le_maxShift habsorb
          have hoffset := toNat_off_add_seven hw hoff hlt
          have hrest := ih (n := n + 1) hoffc hrecv' (by simp [htaken, Nat.add_assoc]) hagendac hlater
          simpa [hheld.dec, hoffset] using hrest
        | value acc =>
          rw [habsorb] at hedge
          cases hedge
          exact run_decStands_of_done hw hoffc hagendac hlater ⟨rfl, rfl, rfl, by simp [htaken, Nat.add_assoc]⟩
        | invalid =>
          rw [habsorb] at hedge
          cases hedge
          exact run_decStands_of_done hw hoffc hagendac hlater ⟨rfl, rfl, rfl, by simp [htaken, Nat.add_assoc]⟩
        | noShift => exact absurd habsorb (absorb_ne_noShift hoff.le_maxShift)

/-- Settles O54: a fresh decoder is at the start of the loop. -/
theorem decodeRunComputesDec : Obligations.DecodeRunComputesDec := by
  rintro s ⟨hsupported, -, hmod, hmax, -⟩ ⟨hrecv, hacc, hoff⟩ hedges
  obtain ⟨c, hrun, hstands⟩ := run_decStands (signed := s.signed) (bounds_of_supportedWidth hsupported).2 ⟨hmod, hmax⟩
    hrecv (Nat.add_zero s.block.taken.length).symm rfl hedges
  rw [hacc, hoff] at hstands
  change DecStands s.block.taken.length c (dec s.width s.signed (sourceAnswers s.block.agenda)) at hstands
  refine ⟨c, hrun, ?_⟩
  generalize dec s.width s.signed (sourceAnswers s.block.agenda) = r at hstands ⊢
  cases r <;> exact hstands

end Sys2Proof.Machine
end

section
/-!
PROOF. 70_reset_and_hazards.md, section 1: what an operation does depends on no operation before it (R243).
-/

namespace Sys2Proof.Machine

variable {w : Nat} {signed : Bool}

/-! ### Records that grow alike -/

/-- From `k` to `k'` and from `l` to `l'` the same was added at the end. -/
def GrowAlike {α : Type} (k k' l l' : List α) : Prop := ∃ m, k' = k ++ m ∧ l' = l ++ m

namespace GrowAlike

variable {α : Type} {k k' k'' l l' l'' : List α}

theorem refl (k l : List α) : GrowAlike k k l l := ⟨[], by simp⟩

theorem append (k l m : List α) : GrowAlike k (k ++ m) l (l ++ m) := ⟨m, rfl, rfl⟩

theorem trans (h : GrowAlike k k' l l') (h' : GrowAlike k' k'' l' l'') : GrowAlike k k'' l l'' := by
  obtain ⟨m, rfl, rfl⟩ := h
  obtain ⟨m', rfl, rfl⟩ := h'
  exact ⟨m ++ m', by simp⟩

end GrowAlike

/-! ### Registers that are alike where a step can read them -/

/-- In `E_IDLE` only the state is read; `e_status` is read in `E_DONE` only. -/
structure EncAlike (d e : EncUnit w) : Prop where
  state : d.state = e.state
  val : d.state ≠ .idle → d.val = e.val
  cnt : d.state ≠ .idle → d.cnt = e.cnt
  status : d.state = .done → d.status = e.status

/-- `d_status` is read in `D_DONE` only. -/
structure DecAlike (d e : DecUnit w) : Prop where
  state : d.state = e.state
  acc : d.acc = e.acc
  off : d.off = e.off
  status : d.state = .done → d.status = e.status

theorem EncAlike.refl (d : EncUnit w) : EncAlike d d := ⟨rfl, fun _ => rfl, fun _ => rfl, fun _ => rfl⟩

theorem DecAlike.refl (d : DecUnit w) : DecAlike d d := ⟨rfl, rfl, rfl, fun _ => rfl⟩

/-! ### Unit `ENC` -/

/-- From `b` to `b'` and from `c` to `c'` unit `ENC` did the same. -/
structure EncStepsAlike (b b' c c' : Block w) : Prop where
  regs : EncAlike b'.enc c'.enc
  sink : GrowAlike b.sink b'.sink c.sink c'.sink
  encResults : GrowAlike b.encResults b'.encResults c.encResults c'.encResults

theorem encAdvance_alike {d e : EncUnit w} (h : EncAlike d e) (hemit : d.state = .emit) :
    EncAlike (encAdvance signed d) (encAdvance signed e) := by
  have hval : d.val = e.val := h.val (by simp [hemit])
  have hcnt : d.cnt = e.cnt := h.cnt (by simp [hemit])
  unfold encAdvance
  rw [hval, hcnt]
  split
  · exact ⟨rfl, fun _ => rfl, fun _ => rfl, fun _ => rfl⟩
  · exact ⟨h.state, fun _ => rfl, fun _ => rfl, by simp [hemit]⟩

theorem encWrite_alike {b c : Block w} (hports : b.ports = c.ports) (h : EncAlike b.enc c.enc)
    (hemit : b.enc.state = .emit) : EncStepsAlike b (encWrite signed b) c (encWrite signed c) := by
  have hval : b.enc.val = c.enc.val := h.val (by simp [hemit])
  cases herr : b.ports.encSnkErr with
  | false =>
    rw [encWrite_of_ok signed herr, encWrite_of_ok signed (hports ▸ herr), hval]
    exact ⟨encAdvance_alike h hemit, .append _ _ _, .refl _ _⟩
  | true =>
    have hcnt : b.enc.cnt = c.enc.cnt := h.cnt (by simp [hemit])
    rw [encWrite_of_fail signed herr, encWrite_of_fail signed (hports ▸ herr), hval, hports]
    refine ⟨⟨rfl, fun _ => hval, fun _ => hcnt, fun _ => rfl⟩, ?_, .refl _ _⟩
    cases c.ports.snkKeeps with
    | true => exact .append _ _ _
    | false => exact .refl _ _

theorem encEdge_alike {b c : Block w} (hports : b.ports = c.ports) (h : EncAlike b.enc c.enc)
    (hrst : b.ports.rst = false) : EncStepsAlike b (encEdge signed b) c (encEdge signed c) := by
  have hwait (hidle : b.enc.state = .idle → b.ports.encInValid = false)
      (hemit : b.enc.state = .emit → b.ports.encSnkReady = false)
      (hdone : b.enc.state = .done → b.ports.encResReady = false) :
      EncStepsAlike b (encEdge signed b) c (encEdge signed c) := by
    rw [encEdge_of_wait signed hidle hemit hdone]
    rw [h.state, hports] at hidle hemit hdone
    rw [encEdge_of_wait signed hidle hemit hdone]
    exact ⟨h, .refl _ _, .refl _ _⟩
  have hrstc : c.ports.rst = false := hports ▸ hrst
  cases hstate : b.enc.state with
  | idle =>
    have hstatec : c.enc.state = .idle := h.state ▸ hstate
    cases hvalid : b.ports.encInValid with
    | false => exact hwait (fun _ => hvalid) (by simp [hstate]) (by simp [hstate])
    | true =>
      rw [encEdge_of_accept signed hrst hvalid hstate, encEdge_of_accept signed hrstc (hports ▸ hvalid) hstatec, hports]
      exact ⟨⟨rfl, fun _ => rfl, fun _ => rfl, nofun⟩, .refl _ _, .refl _ _⟩
  | emit =>
    have hstatec : c.enc.state = .emit := h.state ▸ hstate
    cases hready : b.ports.encSnkReady with
    | false => exact hwait (by simp [hstate]) (fun _ => hready) (by simp [hstate])
    | true =>
      rw [encEdge_of_write signed hrst hready hstate, encEdge_of_write signed hrstc (hports ▸ hready) hstatec]
      exact encWrite_alike hports h hstate
  | done =>
    have hstatec : c.enc.state = .done := h.state ▸ hstate
    cases hready : b.ports.encResReady with
    | false => exact hwait (by simp [hstate]) (by simp [hstate]) (fun _ => hready)
    | true =>
      have hcnt : b.enc.cnt = c.enc.cnt := h.cnt (by simp [hstate])
      rw [encEdge_of_result signed hrst hready hstate, encEdge_of_result signed hrstc (hports ▸ hready) hstatec]
      refine ⟨⟨rfl, fun hne => absurd rfl hne, fun hne => absurd rfl hne, nofun⟩, .refl _ _, ?_⟩
      rw [giveResult_enc_encResults, giveResult_enc_encResults, h.status hstate, hcnt]
      exact .append _ _ _

/-! ### Unit `DEC` -/

/-- From `b` to `b'` and from `c` to `c'` unit `DEC` did the same. -/
structure DecStepsAlike (b b' c c' : Block w) : Prop where
  regs : DecAlike b'.dec c'.dec
  taken : GrowAlike b.taken b'.taken c.taken c'.taken
  decResults : GrowAlike b.decResults b'.decResults c.decResults c'.decResults

theorem applyAbsorbed_alike {a : Absorbed w} {x : Byte} {b b' c : Block w} (h : DecAlike b.dec c.dec)
    (hb : applyAbsorbed a (takeByte x b) = .next b') :
    ∃ c', applyAbsorbed a (takeByte x c) = .next c' ∧ DecStepsAlike b b' c c' := by
  obtain ⟨acc, rfl, rfl⟩ | ⟨acc, rfl, rfl⟩ | ⟨rfl, rfl⟩ := applyAbsorbed_eq_next.1 hb
  · exact ⟨_, rfl, ⟨h.state, rfl, congrArg (· + 7#8) h.off, h.status⟩, .append _ _ _, .refl _ _⟩
  · exact ⟨_, rfl, ⟨rfl, rfl, h.off, fun _ => rfl⟩, .append _ _ _, .refl _ _⟩
  · exact ⟨_, rfl, ⟨rfl, h.acc, h.off, fun _ => rfl⟩, .append _ _ _, .refl _ _⟩

theorem decEdge_alike {b b' c : Block w} (hports : b.ports = c.ports) (h : DecAlike b.dec c.dec)
    (hrst : b.ports.rst = false) (hb : decEdge signed b = .next b') :
    ∃ c', decEdge signed c = .next c' ∧ DecStepsAlike b b' c c' := by
  have hwait (hrecv : b.dec.state = .recv → b.ports.decSrcValid = false)
      (hdone : b.dec.state = .done → b.ports.decResReady = false) :
      ∃ c', decEdge signed c = .next c' ∧ DecStepsAlike b b' c c' := by
    rw [decEdge_of_wait signed hrecv hdone] at hb
    cases hb
    rw [h.state, hports] at hrecv hdone
    exact ⟨c, decEdge_of_wait signed hrecv hdone, h, .refl _ _, .refl _ _⟩
  have hrstc : c.ports.rst = false := hports ▸ hrst
  cases hstate : b.dec.state with
  | recv =>
    have hstatec : c.dec.state = .recv := h.state ▸ hstate
    cases hvalid : b.ports.decSrcValid with
    | false => exact hwait (fun _ => hvalid) (by simp [hstate])
    | true =>
      have hvalidc : c.ports.decSrcValid = true := hports ▸ hvalid
      cases herr : b.ports.decSrcErr with
      | true =>
        rw [decEdge_of_fail signed hrst hvalid herr hstate] at hb
        cases hb
        exact ⟨_, decEdge_of_fail signed hrstc hvalidc (hports ▸ herr) hstatec, ⟨rfl, h.acc, h.off, fun _ => rfl⟩,
          .refl _ _, .refl _ _⟩
      | false =>
        rw [decEdge_of_byte signed hrst hvalid herr hstate, hports, h.acc, h.off] at hb
        rw [decEdge_of_byte signed hrstc hvalidc (hports ▸ herr) hstatec]
        exact applyAbsorbed_alike h hb
  | done =>
    have hstatec : c.dec.state = .done := h.state ▸ hstate
    cases hready : b.ports.decResReady with
    | false => exact hwait (by simp [hstate]) (fun _ => hready)
    | true =>
      rw [decEdge_of_result signed hrst hready hstate] at hb
      cases hb
      refine ⟨_, decEdge_of_result signed hrstc (hports ▸ hready) hstatec, ⟨rfl, rfl, rfl, nofun⟩, .refl _ _, ?_⟩
      rw [giveResult_dec_decResults, giveResult_dec_decResults, h.status hstate, h.acc]
      exact .append _ _ _

/-! ### The machine -/

/-- The blocks are alike in all that a step can read. -/
structure BlocksAlike (b c : Block w) : Prop where
  enc : EncAlike b.enc c.enc
  dec : DecAlike b.dec c.dec
  agenda : b.agenda = c.agenda

/-- From `b` to `b'` and from `c` to `c'` the environment has received the same. -/
structure RecordsGrowAlike (b b' c c' : Block w) : Prop where
  sink : GrowAlike b.sink b'.sink c.sink c'.sink
  taken : GrowAlike b.taken b'.taken c.taken c'.taken
  encResults : GrowAlike b.encResults b'.encResults c.encResults c'.encResults
  decResults : GrowAlike b.decResults b'.decResults c.decResults c'.decResults

theorem RecordsGrowAlike.trans {b b' b'' c c' c'' : Block w} (h : RecordsGrowAlike b b' c c')
    (h' : RecordsGrowAlike b' b'' c' c'') : RecordsGrowAlike b b'' c c'' :=
  ⟨h.sink.trans h'.sink, h.taken.trans h'.taken, h.encResults.trans h'.encResults, h.decResults.trans h'.decResults⟩

/-- One edge of each of two machines that are alike, whatever it brings. -/
theorem step_alike (hw : w ≤ 128) {b c : Block w} (hoff : OffsetInRange b.dec) (h : BlocksAlike b c) :
    ∃ b' c', step ⟨w, signed, b⟩ = .next ⟨w, signed, b'⟩ ∧ step ⟨w, signed, c⟩ = .next ⟨w, signed, c'⟩ ∧
      OffsetInRange b'.dec ∧ BlocksAlike b' c' ∧ RecordsGrowAlike b b' c c' := by
  have hports : nextPorts b = nextPorts c := by unfold nextPorts; rw [h.agenda]
  cases hrst : (nextPorts b).rst with
  | true =>
    refine ⟨_, _, step_of_rst (s := ⟨w, signed, b⟩) hrst, step_of_rst (s := ⟨w, signed, c⟩) (hports ▸ hrst),
      ⟨rfl, Nat.zero_le _⟩, ⟨.refl _, .refl _, congrArg List.tail h.agenda⟩, .refl _ _, .refl _ _, .refl _ _, .refl _ _⟩
  | false =>
    have henc := encEdge_alike (signed := signed) (b := samplePorts b) (c := samplePorts c) hports h.enc hrst
    obtain ⟨b', hstep, hoffb, hagenda, hedge⟩ := step_answers_decEdge hw signed hoff hrst
    have hports' : (encEdge signed (samplePorts b)).ports = (encEdge signed (samplePorts c)).ports := by
      rw [encEdge_ports, encEdge_ports]; exact hports
    have hdec' : DecAlike (encEdge signed (samplePorts b)).dec (encEdge signed (samplePorts c)).dec := by
      rw [encEdge_dec, encEdge_dec]; exact h.dec
    obtain ⟨c', hedgec, hdec⟩ := decEdge_alike hports' hdec' (by rw [encEdge_ports]; exact hrst) hedge
    have hstepc : step ⟨w, signed, c⟩ = .next ⟨w, signed, c'⟩ :=
      (step_eq_next_withBlock (s := ⟨w, signed, c⟩)).2 (.inr ⟨hports ▸ hrst, hedgec⟩)
    have hsame := decEdge_sameButDec hedge
    have hsamec := decEdge_sameButDec hedgec
    refine ⟨b', c', hstep, hstepc, hoffb, ⟨?_, hdec.regs, ?_⟩, ?_, ?_, ?_, ?_⟩
    · rw [hsame.enc, hsamec.enc]; exact henc.regs
    · rw [hagenda, h.agenda, hsamec.agenda, encEdge_agenda]; rfl
    · rw [hsame.sink, hsamec.sink]; exact henc.sink
    · simpa using hdec.taken
    · rw [hsame.encResults, hsamec.encResults]; exact henc.encResults
    · simpa using hdec.decResults

theorem run_alike (hw : w ≤ 128) (n : Nat) {b c : Block w} (hoff : OffsetInRange b.dec) (h : BlocksAlike b c) :
    ∃ b' c', run n ⟨w, signed, b⟩ = .next ⟨w, signed, b'⟩ ∧ run n ⟨w, signed, c⟩ = .next ⟨w, signed, c'⟩ ∧
      RecordsGrowAlike b b' c c' := by
  induction n generalizing b c with
  | zero => exact ⟨b, c, rfl, rfl, .refl _ _, .refl _ _, .refl _ _, .refl _ _⟩
  | succ n ih =>
    obtain ⟨b1, c1, hstepb, hstepc, hoff1, h1, hfirst⟩ := step_alike (signed := signed) hw hoff h
    obtain ⟨b', c', hrunb, hrunc, hrest⟩ := ih hoff1 h1
    refine ⟨b', c', ?_, ?_, hfirst.trans hrest⟩
    · rw [run, hstepb, andThen_next, hrunb]
    · rw [run, hstepc, andThen_next, hrunc]

/-- In the invariant an offset of 0 leaves no bit in the accumulator. -/
theorem acc_eq_zero_of_off_zero {b : Block w} (hinv : DecInv b) (hrecv : b.dec.state = .recv) (hoff : b.dec.off = 0#8) :
    b.dec.acc = 0#w := by
  have hlt := ((decInv_iff.1 hinv).2 hrecv).acc_lt
  rw [hoff] at hlt
  exact BitVec.eq_of_toNat_eq (by simpa using hlt)

/-- Settles O51: with no operation in flight the registers that can be read are alike. -/
theorem quiescentMachinesBehaveAlike : Obligations.QuiescentMachinesBehaveAlike := by
  rintro w signed b c ⟨hw, -, hinvb⟩ ⟨-, -, hinvc⟩ ⟨hidleb, hrecvb, hoffb⟩ ⟨hidlec, hrecvc, hoffc⟩ hagenda n
  have henc : EncAlike b.enc c.enc :=
    ⟨hidleb.trans hidlec.symm, absurd hidleb, absurd hidleb, fun hdone => nomatch hidleb.symm.trans hdone⟩
  have hacc := (acc_eq_zero_of_off_zero hinvb hrecvb hoffb).trans (acc_eq_zero_of_off_zero hinvc hrecvc hoffc).symm
  have hdec : DecAlike b.dec c.dec :=
    ⟨hrecvb.trans hrecvc.symm, hacc, hoffb.trans hoffc.symm, fun hdone => nomatch hrecvb.symm.trans hdone⟩
  obtain ⟨b', c', hrunb, hrunc, ⟨k, hkb, hkc⟩, ⟨x, hxb, hxc⟩, ⟨r, hrb, hrc⟩, ⟨v, hvb, hvc⟩⟩ :=
    run_alike (signed := signed) (bounds_of_supportedWidth hw).2 n (decInv_iff.1 hinvb).1 ⟨henc, hdec, hagenda⟩
  exact ⟨b', c', hrunb, hrunc, k, x, r, v, hkb, hkc, hxb, hxc, hrb, hrc, hvb, hvc⟩

end Sys2Proof.Machine
end

section
/-!
PROOF. 30_encoding.md, sections 1 and 6: codes and instructions (R81, R94), and the rows of the opcode table.
-/

namespace Sys2Proof.Machine

/-- Settles O1: the six words are evaluated. -/
theorem specWordsDecode : Obligations.SpecWordsDecode := by
  unfold Obligations.SpecWordsDecode
  decide

theorem decode_encode (i : Instr) : decode (encode i) = i := by
  cases i with
  | encU | encS | decU | decS => rfl
  | byteCont p | byteFinal p => simp [encode, decode]

theorem encode_decodeSelector (sel : BitVec 2) : encode (decodeSelector sel) = .selector sel := by
  revert sel; decide

theorem encode_decodeWire (x : Byte) : encode (decodeWire x) = .wire x := by
  have hx := wireByte_contFlag_payload x
  cases hflag : contFlag x with
  | true => rw [decodeWire_of_contFlag hflag, encode, ← hflag, hx]
  | false => rw [decodeWire_of_not_contFlag hflag, encode, ← hflag, hx]

theorem encode_decode (c : Code) : encode (decode c) = c := by
  cases c with
  | selector sel => exact encode_decodeSelector sel
  | wire x => exact encode_decodeWire x

/-- Settles O4: a selector names its operation, and a wire byte is its flag and its payload. -/
theorem decodeAndEncodeAreInverse : Obligations.DecodeAndEncodeAreInverse := ⟨decode_encode, encode_decode⟩

/-- The code of every instruction is accepted by its own row alone. -/
theorem tableRow_statement (i : Instr) : Laws.TableRow.Statement i := by
  cases i with
  | encU => exact Laws.TableRow.encU
  | encS => exact Laws.TableRow.encS
  | decU => exact Laws.TableRow.decU
  | decS => exact Laws.TableRow.decS
  | byteCont p => exact Laws.TableRow.byteCont p
  | byteFinal p => exact Laws.TableRow.byteFinal p

/-- Settles O5: every code is that of the instruction it decodes to. -/
theorem everyCodeHasExactlyOneRow : Obligations.EveryCodeHasExactlyOneRow := by
  intro c
  have hrow := tableRow_statement (decode c)
  rwa [Laws.TableRow.Statement, encode_decode] at hrow

end Sys2Proof.Machine
end
